-- ==== Sys2Proof/Word.lean ====
section
/-! DEFINITION. The vector types of the block, by role, and the type of a raw operand. -/

namespace Sys2Proof

/-- A data word, BitVector[4] (R21). Element `i` of a vector is bit `i` of the word (R72), so every
inhabitant satisfies the invariant of R20. -/
abbrev DataWord := BitVec 4

/-- A parity (check) word `[p0, p1, p2]`, BitVector[3] (R75). -/
abbrev CheckWord := BitVec 3

/-- A syndrome `[s_c1, s_c2, s_c4]`, BitVector[3] (R76). -/
abbrev Syndrome := BitVec 3

/-- A codeword, received codeword or corrected codeword, BitVector[7] (R25). -/
abbrev Codeword := BitVec 7

/-- An error mask, BitVector[7] (R26). -/
abbrev ErrorMask := BitVec 7

/-- An error position: an integer in 0..7, not a vector (R28). -/
abbrev ErrorPosition := Fin 8

/-- A command word CMD, 20 bits (R80). -/
abbrev Cmd := BitVec 20

/-- A wire-level operand or result field, 7 bits (R80, R86). -/
abbrev Field := BitVec 7

/-- A raw operand at the call level: a finite sequence of integers, index 0 first (R70, R175).
DESIGN CHOICE (log 12): raw elements are integers, as R172 and N21 take them. -/
abbrev Raw := List Int

end Sys2Proof
end

