-- ==== Sys2Proof/Machine/Bits.lean ====
section
/-! DEFINITION. Vectors as index-order sequences of bits (R8, R72), and back. -/

namespace Sys2Proof

/-- The vector written as an index-order literal: element `i` of the list is bit `i` (R8, R72).
Elements past the end of a short list are 0. -/
def ofBools (n : Nat) (bs : List Bool) : BitVec n :=
  BitVec.ofNat n (bs.foldr (fun b acc => b.toNat + 2 * acc) 0)

/-- The elements of a vector in index order (R8). -/
def toBools {n : Nat} (v : BitVec n) : List Bool := (List.range n).map v.getLsbD

/-- The bit as a raw element (R8). -/
def rawBit (b : Bool) : Int := if b then 1 else 0

/-- The vector as a raw operand, index 0 first. -/
def rawOf {n : Nat} (v : BitVec n) : Raw := (toBools v).map rawBit

/-- The vector a well-formed raw operand denotes (R175, the last line of `validate`). -/
def ofRaw (n : Nat) (raw : Raw) : BitVec n := ofBools n (raw.map (· == 1))

/-- `rev_n` (R23): transmission order to natural order and back. The block never applies it; it is
the host's conversion at the boundary (D3). -/
def rev {n : Nat} (v : BitVec n) : BitVec n := ofBools n (toBools v).reverse

/-- `unit7(p)`, the source's `mask_with_single_bit_set(p)`: element `p - 1` is 1 and every other is 0,
for `p` in 1..7 (R90). A constant of the test bench, no operation. -/
def unit7 (p : Nat) : BitVec 7 := ofBools 7 ((List.range 7).map fun i => i + 1 == p)

/-- A copy of the vector with element `i` complemented (R141). -/
def complementBit {n : Nat} (v : BitVec n) (i : Nat) : BitVec n :=
  ofBools n ((List.range n).map fun j => if j = i then !v.getLsbD j else v.getLsbD j)

end Sys2Proof
end

