-- ==== Sys2Proof/Config.lean ====
section
/-! DEFINITION. What is fixed for the machine: the sizes of R7, and the inputs' values at reset, which
the spec leaves open. There is no free value: the spec leaves no result of any operation open. -/

namespace Sys2Proof.Config

/-- Length of a data word (R7, R21). -/
abbrev dataLength : Nat := 4

/-- Length of a parity word and of a syndrome (R7, R21). -/
abbrev checkLength : Nat := 3

/-- Length of a codeword and of an error mask (R7, R21). -/
abbrev codeLength : Nat := 7

/-- Width of a command word (R7, R80). -/
abbrev cmdWidth : Nat := 20

/-- DESIGN CHOICE (log 1, unsafe): what the host's `input_word` holds at reset. R40 and U2 give it no
value; no statement rests on this one. -/
def resetInputWord : Raw := [0, 0, 0, 0]

/-- DESIGN CHOICE (log 1, unsafe): what the host's `error_mask` holds at reset (R40, U2: open). -/
def resetErrorMask : Raw := [0, 0, 0, 0, 0, 0, 0]

/-- DESIGN CHOICE (log 1, unsafe): what the host's `even_parity` holds at reset (R40, U2: open). -/
def resetEvenParity : Bool := false

end Sys2Proof.Config
end

