-- ==== Sys2Proof/Syntax.lean ====
section
/-! DEFINITION. The ten operations at the call level (R71), which is the normative one (R70): an
operation's name and its RAW operands, well formed or not. -/

namespace Sys2Proof

/-- One constructor per row of the opcode table; operands in the written order of R71. A vector
operand is raw, because the two error classes are raised on raw operands (R70, R175); the convention
`ep` is a Boolean, true for even parity (R79); CORRECT's position is an integer (R71). -/
inductive Instr where
  | parity (data : Raw) (ep : Bool)
  | assemble (data parity : Raw)
  | disassemble (codeword : Raw)
  | applyError (codeword mask : Raw)
  | syndrome (received : Raw) (ep : Bool)
  | locate (syndrome : Raw)
  | correct (received : Raw) (position : Int)
  | encode (data : Raw) (ep : Bool)
  | decode (received : Raw) (ep : Bool)
  | simulate
  deriving DecidableEq, Repr

end Sys2Proof
end

