-- ==== Sys2Proof/WellFormed.lean ====
section
/-! DEFINITION. Well-formed invocations: those whose operands are what R71 says, which are exactly the
ones that have a command word (R70). -/

namespace Sys2Proof

/-- The raw element is exactly 0 or 1 (R20, R172). -/
def Raw.isBit (x : Int) : Bool := x == 0 || x == 1

/-- The raw operand is a well-formed vector of length `n` (R20, R21). -/
def Raw.isVector (n : Nat) (raw : Raw) : Bool := raw.length == n && raw.all Raw.isBit

/-- The integer is an error position, 0..7 (R28). -/
def isPosition (n : Int) : Bool := 0 ≤ n && n ≤ 7

/-- Every operand has the length and the element values of its role (R71, R177). -/
def Instr.wellFormed : Instr → Bool
  | .parity d _ => d.isVector Config.dataLength
  | .assemble d p => d.isVector Config.dataLength && p.isVector Config.checkLength
  | .disassemble c => c.isVector Config.codeLength
  | .applyError c m => c.isVector Config.codeLength && m.isVector Config.codeLength
  | .syndrome r _ => r.isVector Config.codeLength
  | .locate v => v.isVector Config.checkLength
  | .correct r n => r.isVector Config.codeLength && isPosition n
  | .encode d _ => d.isVector Config.dataLength
  | .decode r _ => r.isVector Config.codeLength
  | .simulate => true

end Sys2Proof
end

