-- ==== Sys2Proof/Decode.lean ====
section
/-! DEFINITION. The wire level: the command word of R80 to R83, its decoder and its encoder. -/

namespace Sys2Proof

/-- The ten operations as table rows (R81), operands left out. -/
inductive Op where
  | parity | assemble | disassemble | applyError | syndrome
  | locate | correct | encode | decode | simulate
  deriving DecidableEq, Repr

/-- Why a command word is reserved (R83). -/
inductive DecodeError where
  /-- `op` is 0x0 or 0xB to 0xF. -/
  | reservedOp
  /-- `op` names an operation, and a bit that must be 0 for it is 1. -/
  | mustBeZeroBitSet
  deriving DecidableEq, Repr

/-- The rows in the order of R81. -/
def Op.all : List Op :=
  [.parity, .assemble, .disassemble, .applyError, .syndrome,
   .locate, .correct, .encode, .decode, .simulate]

/-- The operation code, CMD[19:16] (R81, R82). -/
def Op.code : Op → BitVec 4
  | .parity => 0x1
  | .assemble => 0x2
  | .disassemble => 0x3
  | .applyError => 0x4
  | .syndrome => 0x5
  | .locate => 0x6
  | .correct => 0x7
  | .encode => 0x8
  | .decode => 0x9
  | .simulate => 0xA

/-- The row's match column (R81). -/
def Op.pattern : Op → Cmd
  | .parity => 0x10000
  | .assemble => 0x20000
  | .disassemble => 0x30000
  | .applyError => 0x40000
  | .syndrome => 0x50000
  | .locate => 0x60000
  | .correct => 0x70000
  | .encode => 0x80000
  | .decode => 0x90000
  | .simulate => 0xA0000

/-- The row's mask column (R81). -/
def Op.mask : Op → Cmd
  | .parity => 0xF7FF0
  | .assemble => 0xFF8F0
  | .disassemble => 0xFFF80
  | .applyError => 0xF8080
  | .syndrome => 0xF7F80
  | .locate => 0xFFFF8
  | .correct => 0xFF880
  | .encode => 0xF7FF0
  | .decode => 0xF7F80
  | .simulate => 0xFFFFF

/-- The command word is the operation of this row: `(CMD AND mask) = match` (R82). -/
def Op.matches (o : Op) (cmd : Cmd) : Bool := (cmd &&& o.mask) == o.pattern

/-- The row a command word matches, if any; rows exclude each other (R82). -/
def rowOf (cmd : Cmd) : Option Op := Op.all.find? (·.matches cmd)

/-- The first `n` elements of the operand in field `A`, CMD[6:0] (R81). -/
def operandA (n : Nat) (cmd : Cmd) : Raw := rawOf (cmd.extractLsb' 0 n)

/-- The first `n` elements of the operand in field `B`, CMD[14:8] (R81). -/
def operandB (n : Nat) (cmd : Cmd) : Raw := rawOf (cmd.extractLsb' 8 n)

/-- The convention bit CMD[15]: 1 is even parity (R79). -/
def operandEp (cmd : Cmd) : Bool := cmd.getLsbD 15

/-- The position in `B[2:0]`, an unsigned number (R78). -/
def operandPosition (cmd : Cmd) : Int := (cmd.extractLsb' 8 3).toNat

/-- The invocation of a row, its operands read from the fields (R81). -/
def Op.instr (cmd : Cmd) : Op → Instr
  | .parity => .parity (operandA 4 cmd) (operandEp cmd)
  | .assemble => .assemble (operandA 4 cmd) (operandB 3 cmd)
  | .disassemble => .disassemble (operandA 7 cmd)
  | .applyError => .applyError (operandA 7 cmd) (operandB 7 cmd)
  | .syndrome => .syndrome (operandA 7 cmd) (operandEp cmd)
  | .locate => .locate (operandA 3 cmd)
  | .correct => .correct (operandA 7 cmd) (operandPosition cmd)
  | .encode => .encode (operandA 4 cmd) (operandEp cmd)
  | .decode => .decode (operandA 7 cmd) (operandEp cmd)
  | .simulate => .simulate

/-- Why a word that matches no row is reserved (R83). -/
def reservedReason (cmd : Cmd) : DecodeError :=
  if Op.all.any (fun o => o.code == cmd.extractLsb' 16 4) then .mustBeZeroBitSet else .reservedOp

/-- The decoder, total on the 2^20 command words (R87). -/
def decodeCmd (cmd : Cmd) : Except DecodeError Instr :=
  match rowOf cmd with
  | some o => .ok (o.instr cmd)
  | none => .error (reservedReason cmd)

/-- The command word of an operation with its fields (R80): `op`, `ep`, `B`, `z` = 0, `A`. -/
def pack (o : Op) (ep : Bool) (b a : Field) : Cmd :=
  o.code ++ BitVec.ofBool ep ++ b ++ (0 : BitVec 1) ++ a

/-- The field of a well-formed raw vector: element `i` to bit `i`, unused bits 0 (R72, R81). -/
def fieldOf (raw : Raw) : Field := ofRaw 7 raw

/-- The command word of a well-formed invocation (R80, R81); a malformed one has none (R70). -/
def encode (i : Instr) : Option Cmd :=
  if i.wellFormed then
    some (match i with
      | .parity data ep => pack .parity ep 0 (fieldOf data)
      | .assemble data parity => pack .assemble false (fieldOf parity) (fieldOf data)
      | .disassemble codeword => pack .disassemble false 0 (fieldOf codeword)
      | .applyError codeword mask => pack .applyError false (fieldOf mask) (fieldOf codeword)
      | .syndrome received ep => pack .syndrome ep 0 (fieldOf received)
      | .locate syndrome => pack .locate false 0 (fieldOf syndrome)
      | .correct received position =>
        pack .correct false (BitVec.ofNat 7 position.toNat) (fieldOf received)
      | .encode data ep => pack .encode ep 0 (fieldOf data)
      | .decode received ep => pack .decode ep 0 (fieldOf received)
      | .simulate => pack .simulate false 0 0)
  else none

/-- The command word carried by a table word of `nbits` bits: the bits from `nbits` up count as 0. A
CMD has 20 bits, so a word with a higher bit set carries none. DESIGN CHOICE (log 15). -/
def cmdOfTableWord (nbits w : Nat) : Option Cmd :=
  if w % 2 ^ nbits < 2 ^ 20 then some (BitVec.ofNat 20 (w % 2 ^ nbits)) else none

/-- The invocation the decoder reads from a table word. -/
def decodeTableWord (nbits w : Nat) : Option Instr :=
  (cmdOfTableWord nbits w).bind fun cmd => (decodeCmd cmd).toOption

end Sys2Proof
end

