-- ==== Sys2Proof/Machine/State.lean ====
section
/-! DEFINITION. The state of the block (R30, R31 and no other, R33 to R38), the model's own fields for
the interface to the host, the reasons a step can stop, and the state after reset. -/

namespace Sys2Proof.Machine

/-- The two error classes and no other (R170). -/
inductive ErrorClass where
  /-- An operand's length is not that of its role (R171). -/
  | invalidLength
  /-- An element is neither 0 nor 1 (R172). -/
  | invalidBitValue
  deriving DecidableEq, Repr

/-- The six keys of the published store (R31). -/
inductive PubKey where
  | data | parity | codeword | receivedCodeword | syndrome | correctedData
  deriving DecidableEq, Repr

/-- A whole published entry, at its own width (R54). -/
inductive EntryValue where
  | data (v : DataWord)
  | check (v : CheckWord)
  | code (v : Codeword)
  deriving DecidableEq, Repr

/-- The published store (R31). An entry is absent until the first successful SIMULATE: absence is the
spec's own state ("a model represents each as absent", R39). -/
structure Published where
  data : Option DataWord
  parity : Option CheckWord
  codeword : Option Codeword
  receivedCodeword : Option Codeword
  syndrome : Option Syndrome
  correctedData : Option DataWord
  deriving DecidableEq, Repr

/-- The values of one run of SIMULATE, steps 1 to 7 (R152); `position` and `corrected` are not
published (R38, R153). -/
structure Run where
  data : DataWord
  parity : CheckWord
  codeword : Codeword
  received : Codeword
  syndrome : Syndrome
  position : ErrorPosition
  corrected : Codeword
  correctedData : DataWord
  deriving DecidableEq, Repr

/-- What an operation returns when it does not raise (R71). -/
inductive Result where
  /-- PARITY. -/
  | parity (p : CheckWord)
  /-- ASSEMBLE and ENCODE. -/
  | codeword (c : Codeword)
  /-- DISASSEMBLE. -/
  | split (data : DataWord) (parity : CheckWord)
  /-- APPLY_ERROR. -/
  | received (r : Codeword)
  /-- SYNDROME. -/
  | syndrome (s : Syndrome)
  /-- LOCATE. -/
  | position (n : ErrorPosition)
  /-- CORRECT. -/
  | corrected (c : Codeword)
  /-- DECODE. -/
  | decoded (c : Codeword) (n : ErrorPosition)
  /-- SIMULATE: success, no value (R152). -/
  | done
  deriving DecidableEq, Repr

/-- What the latest move handed back to the host. The model's own (log 3): no operation reads it. -/
inductive Reply where
  /-- Nothing: no move yet, a write of an input, or a reset. -/
  | nothing
  /-- An invocation's result (R71). -/
  | returned (r : Result)
  /-- The error class, in place of a result (R173, R179). -/
  | raised (e : ErrorClass)
  /-- A published entry the host read (R54, R88). -/
  | entry (v : EntryValue)
  deriving DecidableEq, Repr

/-- A host write of one input, whole (R30, R54); the two vectors are raw (R30). -/
inductive InputWrite where
  | inputWord (raw : Raw)
  | errorMask (raw : Raw)
  | evenParity (even : Bool)
  deriving DecidableEq, Repr

/-- One move of the host, made between invocations (R30, R32, R58). -/
inductive HostMove where
  /-- Issue a command word (R80). -/
  | command (cmd : Cmd)
  /-- Issue an invocation at the call level (R70). -/
  | call (i : Instr)
  /-- Write an input (R30). -/
  | write (w : InputWrite)
  /-- Read a published entry by its name (R31). -/
  | readName (k : PubKey)
  /-- Read a published entry by its 3-bit key index (R56, R88). -/
  | readIndex (k : BitVec 3)
  /-- Reset the block between invocations (R40). -/
  | reset
  deriving DecidableEq, Repr

/-- The machine's state. `inputWord`, `errorMask` and `evenParity` are the host-owned inputs (R30),
`pub` the published store (R31). `script` (the host's pending moves, oldest first) and `reply` are
the model's own fields, the host's side of the interface as plain data (log 3). -/
structure State where
  inputWord : Raw
  errorMask : Raw
  evenParity : Bool
  pub : Published
  script : List HostMove
  reply : Reply
  deriving DecidableEq, Repr

/-- Why the machine stops with a fault: never. The two error classes are returned to the caller and the
block goes on (R173, R179, R180), so they are replies; the spec has no other fault (log 13, safe). -/
inductive Fault where
  deriving DecidableEq, Repr

/-- Why a step has no meaning. -/
inductive Refusal where
  /-- Raised by an arm of `exec` whose instruction has no meaning yet. Safe. -/
  | notModelled (mnemonic : String)
  /-- Raised by a command word that is no operation (R83, U4; log 8). Safe. -/
  | reservedCommand (cmd : Cmd)
  /-- Raised by the command word of SIMULATE when an input is malformed, a run that has no wire-level
  form: the two error classes arise at the call level only (R70, R86, P4; log 7). Safe. -/
  | malformedInputOnWire
  /-- Raised by CORRECT at a position outside 0..7 (R141, U3; log 9). Safe. -/
  | positionOutOfRange (position : Int)
  /-- Raised by a host read of an entry that holds no value (R39, U1; log 2). Safe. -/
  | absentEntry (key : PubKey)
  /-- Raised by a host read of key index 6 or 7 (R56, U5; log 15). Safe. -/
  | noSuchKey (index : BitVec 3)
  deriving DecidableEq, Repr

/-- The answer of a meaning or of a step. -/
abbrev Answer := Host.Outcome State Fault Refusal

/-- The store with every entry absent (R39). -/
def Published.absent : Published := ⟨none, none, none, none, none, none⟩

/-- The state after reset when the host's inputs hold these values: R40 leaves them to the host, so
what the spec says of reset is said of this, for all three (U2). -/
def State.launch (inputWord errorMask : Raw) (evenParity : Bool) : State :=
  ⟨inputWord, errorMask, evenParity, .absent, [], .nothing⟩

/-- The state after reset (R39, R40), the inputs at the values of log 1. -/
def State.reset : State :=
  .launch Config.resetInputWord Config.resetErrorMask Config.resetEvenParity

end Sys2Proof.Machine
end

