-- ==== Sys2Proof/Machine/Ops.lean ====
section
/-! DEFINITION. The named operations on the state: the accessors of the inputs, publication, the
reply, raising an error, and the host's own accesses. -/

namespace Sys2Proof.Machine

/-- `get_input_word()` (R30): raw, as the host holds it. -/
def State.getInputWord (s : State) : Raw := s.inputWord

/-- `get_error_mask()` (R30). -/
def State.getErrorMask (s : State) : Raw := s.errorMask

/-- `get_parity_convention()` (R30). -/
def State.getParityConvention (s : State) : Bool := s.evenParity

/-- Hand something back to the host. -/
def State.withReply (s : State) (r : Reply) : State := { s with reply := r }

/-- Hand an operation's result back to the caller (R71). -/
def State.giveResult (s : State) (r : Result) : State := s.withReply (.returned r)

/-- Raising an error (R173, R179): the class goes to the caller in place of a result; no state of the
block changes and nothing is saved. There is no handler and no return: the next invocation finds the
block as it was (R180). -/
def State.raiseError (s : State) (e : ErrorClass) : State := s.withReply (.raised e)

/-- The six published values of a run (R153). -/
def Run.published (r : Run) : Published :=
  ⟨some r.data, some r.parity, some r.codeword, some r.received, some r.syndrome,
   some r.correctedData⟩

/-- Publication: all six entries written together (R60, R152 step 8). -/
def State.publish (s : State) (r : Run) : State := { s with pub := r.published }

/-- The host's list of moves without the one being made. -/
def State.withScript (s : State) (ms : List HostMove) : State := { s with script := ms }

/-- A host write of one input: that input and nothing else of the block (R30, R32, R192). -/
def State.writeInput (s : State) : InputWrite → State
  | .inputWord raw => { s with inputWord := raw, reply := .nothing }
  | .errorMask raw => { s with errorMask := raw, reply := .nothing }
  | .evenParity even => { s with evenParity := even, reply := .nothing }

/-- The number of the input written: `input_word` 0, `error_mask` 1, `even_parity` 2 (R56, D11). -/
def InputWrite.index : InputWrite → Nat
  | .inputWord _ => 0
  | .errorMask _ => 1
  | .evenParity _ => 2

/-- The key index of a published entry (R56, D11). -/
def PubKey.index : PubKey → BitVec 3
  | .data => 0
  | .parity => 1
  | .codeword => 2
  | .receivedCodeword => 3
  | .syndrome => 4
  | .correctedData => 5

/-- The keys in the order of R31. -/
def PubKey.all : List PubKey :=
  [.data, .parity, .codeword, .receivedCodeword, .syndrome, .correctedData]

/-- The key a 3-bit index names; 6 and 7 name none (R56). -/
def PubKey.ofIndex (i : BitVec 3) : Option PubKey := PubKey.all.find? (·.index == i)

/-- A whole published entry, or absence (R31, R54). -/
def Published.read (p : Published) : PubKey → Option EntryValue
  | .data => p.data.map .data
  | .parity => p.parity.map .check
  | .codeword => p.codeword.map .code
  | .receivedCodeword => p.receivedCodeword.map .code
  | .syndrome => p.syndrome.map .check
  | .correctedData => p.correctedData.map .data

/-- A host read by name: the entry, or a refusal where it is absent (R39, U1). It changes no state of
the block (R55). -/
def readEntry (k : PubKey) (s : State) : Answer :=
  match s.pub.read k with
  | some v => .next (s.withReply (.entry v))
  | none => .refused (.absentEntry k)

/-- A host read by key index; an index that names no entry is refused (R56, R88, U5). -/
def readIndexed (i : BitVec 3) (s : State) : Answer :=
  match PubKey.ofIndex i with
  | some k => readEntry k s
  | none => .refused (.noSuchKey i)

/-- A reset between invocations (R40): the store back to absent; the inputs are the host's and stay.
The host's list of moves is not state of the block and stays too (log 16). -/
def resetBlock (s : State) : State :=
  (State.launch s.inputWord s.errorMask s.evenParity).withScript s.script

end Sys2Proof.Machine
end

