-- ==== Sys2Proof/Machine/Operands.lean ====
section
/-! DEFINITION. The operand forms: a raw vector, checked by `validate` (R175), and CORRECT's integer
position (R141, U3). -/

namespace Sys2Proof.Machine

/-- `validate(raw, n)` (R175): the length first, then the element values. -/
def validate (n : Nat) (raw : Raw) : Except ErrorClass (BitVec n) :=
  if raw.length ≠ n then .error .invalidLength
  else if raw.any (fun x => x != 0 && x != 1) then .error .invalidBitValue
  else .ok (ofRaw n raw)

/-- A vector operand of length `n`: a malformed one ends the invocation with its error class (R173),
a well-formed one goes on to `k`. Nesting it checks operands in written order (R176). -/
def withVector (n : Nat) (raw : Raw) (s : State) (k : BitVec n → Answer) : Answer :=
  match validate n raw with
  | .error e => .next (s.raiseError e)
  | .ok v => k v

/-- The position operand of CORRECT: an integer in 0..7 (R28), anything else is none. -/
def positionOf (n : Int) : Option ErrorPosition :=
  if h : n.toNat < 8 then (if 0 ≤ n then some ⟨n.toNat, h⟩ else none) else none

/-- The position operand: outside 0..7 the spec gives no effect and no error class, and the model
refuses (U3, D15); it neither wraps nor clamps. -/
def withPosition (n : Int) (k : ErrorPosition → Answer) : Answer :=
  match positionOf n with
  | some p => k p
  | none => .refused (.positionOutOfRange n)

end Sys2Proof.Machine
end

