-- ==== Sys2Proof/Machine/Channel.lean ====
section
/-! DEFINITION. ErrorChannel: APPLY_ERROR (R120). -/

namespace Sys2Proof.Machine

/-- `apply_error` (R120): element-wise exclusive or, never an inclusive one (R197). -/
def applyError (codeword : Codeword) (mask : ErrorMask) : Codeword := codeword ^^^ mask

/-- APPLY_ERROR (R120); `codeword` is checked before `mask` (R176). -/
def execApplyError (codeword mask : Raw) (s : State) : Answer :=
  withVector 7 codeword s fun c =>
    withVector 7 mask s fun m => .next (s.giveResult (.received (applyError c m)))

end Sys2Proof.Machine
end

