-- ==== Sys2Proof/Machine/Corrector.lean ====
section
/-! DEFINITION. Corrector: LOCATE (R140) and CORRECT (R141). -/

namespace Sys2Proof.Machine

/-- `locate_error` (R140): the weighted sum `4*s[2] + 2*s[1] + s[0]`, which lies in 0..7. -/
def locateError (s : Syndrome) : ErrorPosition :=
  Fin.ofNat 8 (4 * (s.getLsbD 2).toNat + 2 * (s.getLsbD 1).toNat + (s.getLsbD 0).toNat)

/-- `correct` (R141): unchanged at position 0, else a copy with bit `position - 1` complemented. -/
def correct (received : Codeword) (position : ErrorPosition) : Codeword :=
  if position.val = 0 then received else complementBit received (position.val - 1)

/-- LOCATE (R140). -/
def execLocate (syndrome : Raw) (s : State) : Answer :=
  withVector 3 syndrome s fun v => .next (s.giveResult (.position (locateError v)))

/-- CORRECT (R141); the received word is checked first, as its pseudocode has it (log 9). -/
def execCorrect (received : Raw) (position : Int) (s : State) : Answer :=
  withVector 7 received s fun r =>
    withPosition position fun p => .next (s.giveResult (.corrected (correct r p)))

end Sys2Proof.Machine
end

