-- ==== Sys2Proof/Machine/Assembler.lean ====
section
/-! DEFINITION. CodewordAssembler: ASSEMBLE (R110) and DISASSEMBLE (R111), in the layout of R73. -/

namespace Sys2Proof.Machine

/-- `assemble` (R110): `[p0, p1, data[0], p2, data[1], data[2], data[3]]`. -/
def assemble (data : DataWord) (parity : CheckWord) : Codeword :=
  ofBools 7
    [parity.getLsbD 0, parity.getLsbD 1, data.getLsbD 0, parity.getLsbD 2,
     data.getLsbD 1, data.getLsbD 2, data.getLsbD 3]

/-- The data part of a 7-bit word (R111): positions 3, 5, 6, 7. -/
def dataPart (c : Codeword) : DataWord :=
  ofBools 4 [c.getLsbD 2, c.getLsbD 4, c.getLsbD 5, c.getLsbD 6]

/-- The parity part of a 7-bit word (R111): positions 1, 2, 4. -/
def parityPart (c : Codeword) : CheckWord :=
  ofBools 3 [c.getLsbD 0, c.getLsbD 1, c.getLsbD 3]

/-- ASSEMBLE (R110); `data` is checked before `parity` (R176). -/
def execAssemble (data parity : Raw) (s : State) : Answer :=
  withVector 4 data s fun d =>
    withVector 3 parity s fun p => .next (s.giveResult (.codeword (assemble d p)))

/-- DISASSEMBLE (R111). -/
def execDisassemble (codeword : Raw) (s : State) : Answer :=
  withVector 7 codeword s fun c => .next (s.giveResult (.split (dataPart c) (parityPart c)))

end Sys2Proof.Machine
end

