-- ==== Sys2Proof/Machine/Parity.lean ====
section
/-! DEFINITION. ParityCalculator: PARITY (R100). -/

namespace Sys2Proof.Machine

/-- The offset `k`: 0 for even parity, 1 for odd (R24, R100), as a bit. -/
def parityOffset (ep : Bool) : Bool := !ep

/-- `compute_parity` (R100): three sums of bits mod 2, that is XORs of them (R11). -/
def computeParity (data : DataWord) (ep : Bool) : CheckWord :=
  let k := parityOffset ep
  ofBools 3
    [data.getLsbD 0 ^^ data.getLsbD 1 ^^ data.getLsbD 3 ^^ k,
     data.getLsbD 0 ^^ data.getLsbD 2 ^^ data.getLsbD 3 ^^ k,
     data.getLsbD 1 ^^ data.getLsbD 2 ^^ data.getLsbD 3 ^^ k]

/-- PARITY (R100). -/
def execParity (data : Raw) (ep : Bool) (s : State) : Answer :=
  withVector 4 data s fun d => .next (s.giveResult (.parity (computeParity d ep)))

end Sys2Proof.Machine
end

