-- ==== Sys2Proof/Machine/SyndromeDecoder.lean ====
section
/-! DEFINITION. SyndromeDecoder: SYNDROME (R130). -/

namespace Sys2Proof.Machine

/-- `compute_syndrome` (R130): the parity recomputed from the received data, XOR the received parity. -/
def computeSyndrome (received : Codeword) (ep : Bool) : Syndrome :=
  computeParity (dataPart received) ep ^^^ parityPart received

/-- SYNDROME (R130). -/
def execSyndrome (received : Raw) (ep : Bool) (s : State) : Answer :=
  withVector 7 received s fun r => .next (s.giveResult (.syndrome (computeSyndrome r ep)))

end Sys2Proof.Machine
end

