-- ==== Sys2Proof/Machine/Pipeline.lean ====
section
/-! DEFINITION. The compositions ENCODE (R150) and DECODE (R151), and the Pipeline: SIMULATE (R152). -/

namespace Sys2Proof.Machine

/-- The encoder (R150): PARITY, then ASSEMBLE. -/
def encodeData (data : DataWord) (ep : Bool) : Codeword := assemble data (computeParity data ep)

/-- The position the decoder finds (R151): SYNDROME, then LOCATE. -/
def decodePosition (received : Codeword) (ep : Bool) : ErrorPosition :=
  locateError (computeSyndrome received ep)

/-- The decoder's corrected word (R151). -/
def decodeReceived (received : Codeword) (ep : Bool) : Codeword :=
  correct received (decodePosition received ep)

/-- Steps 2 to 7 of SIMULATE on one snapshot of the inputs (R152, R59). -/
def simulateRun (data : DataWord) (mask : ErrorMask) (ep : Bool) : Run :=
  let parity := computeParity data ep
  let codeword := assemble data parity
  let received := applyError codeword mask
  let syndrome := computeSyndrome received ep
  let position := locateError syndrome
  let corrected := correct received position
  ⟨data, parity, codeword, received, syndrome, position, corrected, dataPart corrected⟩

/-- ENCODE (R150). -/
def execEncode (data : Raw) (ep : Bool) (s : State) : Answer :=
  withVector 4 data s fun d => .next (s.giveResult (.codeword (encodeData d ep)))

/-- DECODE (R151): the corrected word and the position. -/
def execDecode (received : Raw) (ep : Bool) (s : State) : Answer :=
  withVector 7 received s fun r =>
    .next (s.giveResult (.decoded (decodeReceived r ep) (decodePosition r ep)))

/-- SIMULATE (R152): step 1 reads and checks the inputs, the word before the mask (R176); a malformed
one ends the run with nothing published (R154); step 8 publishes all six values together (R60). -/
def execSimulate (s : State) : Answer :=
  withVector 4 s.getInputWord s fun d =>
    withVector 7 s.getErrorMask s fun m =>
      .next ((s.publish (simulateRun d m s.getParityConvention)).giveResult .done)

end Sys2Proof.Machine
end

