-- ==== Sys2Proof/Machine/Dispatch.lean ====
section
/-! DEFINITION. One arm per operation: its meaning. -/

namespace Sys2Proof.Machine

def exec (i : Instr) (s : State) : Host.Outcome State Fault Refusal :=
  match i with
  | .parity data ep => Sys2Proof.Machine.execParity data ep s
  | .assemble data par => Sys2Proof.Machine.execAssemble data par s
  | .disassemble codeword => Sys2Proof.Machine.execDisassemble codeword s
  | .applyError codeword mask => Sys2Proof.Machine.execApplyError codeword mask s
  | .syndrome received ep => Sys2Proof.Machine.execSyndrome received ep s
  | .locate syn => Sys2Proof.Machine.execLocate syn s
  | .correct received position => Sys2Proof.Machine.execCorrect received position s
  | .encode data ep => Sys2Proof.Machine.execEncode data ep s
  | .decode received ep => Sys2Proof.Machine.execDecode received ep s
  | .simulate => Sys2Proof.Machine.execSimulate s

end Sys2Proof.Machine
end

