-- ==== Sys2Proof/Machine/HostMoves.lean ====
section
/-! DEFINITION. What each move of the host does, and where the next one is taken from. -/

namespace Sys2Proof.Machine

/-- Whether an operation reads the host's inputs: SIMULATE alone does (R30, R32). -/
def readsInputs : Instr → Bool
  | .parity _ _ => false
  | .assemble _ _ => false
  | .disassemble _ => false
  | .applyError _ _ => false
  | .syndrome _ _ => false
  | .locate _ => false
  | .correct _ _ => false
  | .encode _ _ => false
  | .decode _ _ => false
  | .simulate => true

/-- Both vector inputs are well formed, so that fixed-width fields can hold them (R70). -/
def State.inputsWellFormed (s : State) : Bool :=
  s.getInputWord.isVector Config.dataLength && s.getErrorMask.isVector Config.codeLength

/-- The decoded invocation exists at the wire level: what it reads is well formed. Its own operands
always are; a malformed input "has no wire encoding" (R70, `95_test_vectors.md` P4). -/
def hasWireForm (i : Instr) (s : State) : Bool := !readsInputs i || s.inputsWellFormed

/-- Issue a command word: the operation it decodes to, or a refusal for a reserved word (R83, R87) and
for a run on a malformed input, since the wire level never raises an error (R70, R86; log 7). -/
def runCommand (cmd : Cmd) (s : State) : Answer :=
  match decodeCmd cmd with
  | .ok i => if hasWireForm i s then exec i s else .refused .malformedInputOnWire
  | .error _ => .refused (.reservedCommand cmd)

/-- One move of the host (R30, R32, R40, R58, R70, R88). -/
def runMove (m : HostMove) (s : State) : Answer :=
  match m with
  | .command cmd => runCommand cmd s
  | .call i => exec i s
  | .write w => .next (s.writeInput w)
  | .readName k => readEntry k s
  | .readIndex k => readIndexed k s
  | .reset => .next (resetBlock s)

/-- Take the host's oldest pending move and make it; with none pending the block, which is "invoked on
demand" (R50), does nothing. DESIGN CHOICE (log 5). -/
def runNext (s : State) : Answer :=
  match s.script with
  | [] => .next s
  | m :: rest => runMove m (s.withScript rest)

/-- The move that issues a table word: its command word, or the reserved word 0x00000 where the word
has more than 20 bits and so is none (log 15). -/
def tableMove (nbits w : Nat) : HostMove :=
  .command ((cmdOfTableWord nbits w).getD 0)

/-- The host issues this table word next. -/
def issueTableWord (s : State) (nbits w : Nat) : State :=
  s.withScript (tableMove nbits w :: s.script)

end Sys2Proof.Machine
end

