-- ==== Sys2Proof/Machine/Flags.lean ====
section
/-! DEFINITION. The block has no flags (R35). What stands nearest is the status of a reply and its two
result fields, as the wire level shows them (R86, R174, R88). -/

namespace Sys2Proof.Machine

/-- The ordinal of an error class: 1 and 2 (R174, D7). -/
def ErrorClass.ordinal : ErrorClass → Nat
  | .invalidLength => 1
  | .invalidBitValue => 2

/-- The `status` of an invocation's reply: 0 is OK (R86, R174). Only an invocation has one. -/
def Reply.status : Reply → Option Nat
  | .returned _ => some 0
  | .raised e => some e.ordinal
  | .nothing => none
  | .entry _ => none

/-- Result field `RA`, filled from the low end, unused bits 0 (R86). -/
def Result.ra : Result → Field
  | .parity p => p.setWidth 7
  | .codeword c => c
  | .split d _ => d.setWidth 7
  | .received r => r
  | .syndrome s => s.setWidth 7
  | .position n => BitVec.ofNat 7 n.val
  | .corrected c => c
  | .decoded c _ => c
  | .done => 0

/-- Result field `RB`: used by DISASSEMBLE and DECODE, else 0 (R86). -/
def Result.rb : Result → Field
  | .split _ p => p.setWidth 7
  | .decoded _ n => BitVec.ofNat 7 n.val
  | .parity _ => 0
  | .codeword _ => 0
  | .received _ => 0
  | .syndrome _ => 0
  | .position _ => 0
  | .corrected _ => 0
  | .done => 0

/-- `RA` and `RB` of a reply; when the status is not OK they carry nothing (R86). -/
def Reply.fields : Reply → Option (Field × Field)
  | .returned r => some (r.ra, r.rb)
  | .raised _ => none
  | .nothing => none
  | .entry _ => none

/-- A published entry in its 7-bit field (R88). -/
def EntryValue.field : EntryValue → Field
  | .data v => v.setWidth 7
  | .check v => v.setWidth 7
  | .code v => v

/-- The 7-bit field a host read by key index receives (R88). -/
def Reply.entryField : Reply → Option Field
  | .entry v => some v.field
  | .nothing => none
  | .returned _ => none
  | .raised _ => none

end Sys2Proof.Machine
end

