-- ==== Sys2Proof/Safety.lean ====
section
/-! DEFINITION. The words claims use: what a step may leave, what a valid codeword is, what the
published store may hold. -/

namespace Sys2Proof.Safety

open Sys2Proof.Machine

/-- A safe run of `k` steps: no step of it is refused (and none can fault). -/
def SafeRun : Nat → State → Prop
  | 0, _ => True
  | k + 1, s => ∃ t, step s = .next t ∧ SafeRun k t

/-- CORRECT's position, where the invocation has one, is an error position (R28). -/
def LegalPosition (i : Instr) : Prop := ∀ r n, i = .correct r n → 0 ≤ n ∧ n ≤ 7

/-- A move that is no stop by itself: an operation's command word, an invocation with a legal
position, a write of an input, a reset. (A host read may meet an absent entry.) -/
def Harmless (m : HostMove) : Prop :=
  (∃ cmd i, m = .command cmd ∧ decodeCmd cmd = .ok i) ∨ (∃ i, m = .call i ∧ LegalPosition i) ∨
  (∃ w, m = .write w) ∨ m = .reset

/-- What the host writes is well formed: a vector of its role's length (R30). -/
def WellFormedWrite : InputWrite → Prop
  | .inputWord raw => raw.isVector 4 = true
  | .errorMask raw => raw.isVector 7 = true
  | .evenParity _ => True

/-- Nothing pending can stop the machine: every move is harmless and, where the command word of SIMULATE
is among them, the inputs are well formed and stay so (log 7). No reset
is shut out: it keeps the inputs (log 16, DEDUCED). -/
def Unstoppable (s : State) : Prop :=
  (∀ m ∈ s.script, Harmless m) ∧
  (.command 0xA0000 ∈ s.script →
    s.inputsWellFormed = true ∧ ∀ w, .write w ∈ s.script → WellFormedWrite w)

/-- A host read of this key, by name or by this index, hands back this entry of the store whole, changing
nothing else, and is refused where the entry is absent (R31, R39, R54, R56). -/
def ReadsBack (key : PubKey) (index : BitVec 3) (entry : Published → Option EntryValue) : Prop :=
  ∀ (s : State) rest, (s.script = .readName key :: rest ∨ s.script = .readIndex index :: rest) →
    (∀ v, entry s.pub = some v → step s = .next { s with script := rest, reply := .entry v }) ∧
    (entry s.pub = none → step s = .refused (.absentEntry key))

/-- The invocation hands this result back to the caller and changes nothing else. -/
def Gives (i : Instr) (s : State) (r : Result) : Prop :=
  exec i s = .next { s with reply := .returned r }

/-- The invocation hands back this error class and changes nothing else. -/
def Raises (i : Instr) (s : State) (e : ErrorClass) : Prop :=
  exec i s = .next { s with reply := .raised e }

/-- The inputs, the host's part of the block's state, are the same (R30). -/
def SameInputs (s t : State) : Prop :=
  t.inputWord = s.inputWord ∧ t.errorMask = s.errorMask ∧ t.evenParity = s.evenParity

/-- No state of the block differs: inputs and published store (R32). -/
def SameBlock (s t : State) : Prop := SameInputs s t ∧ t.pub = s.pub

/-- The vector operands an invocation checks, in order, each with its expected length: the table of
R177. SIMULATE checks the two inputs. -/
def checkedOperands (s : State) : Instr → List (Nat × Raw)
  | .parity d _ => [(4, d)]
  | .assemble d p => [(4, d), (3, p)]
  | .disassemble c => [(7, c)]
  | .applyError c m => [(7, c), (7, m)]
  | .syndrome r _ => [(7, r)]
  | .locate v => [(3, v)]
  | .correct r _ => [(7, r)]
  | .encode d _ => [(4, d)]
  | .decode r _ => [(7, r)]
  | .simulate => [(4, s.inputWord), (7, s.errorMask)]

/-- The operand has its role's length (R171). -/
def RightLength (o : Nat × Raw) : Prop := o.2.length = o.1

/-- Every element of the operand is 0 or 1 (R172). -/
def OnlyBits (o : Nat × Raw) : Prop := ∀ x ∈ o.2, x = 0 ∨ x = 1

/-- `e` is the error of the first malformed operand, its length checked before its values (R176). -/
def FirstError (e : ErrorClass) : List (Nat × Raw) → Prop
  | [] => False
  | o :: rest =>
    (¬ RightLength o ∧ e = .invalidLength) ∨
    (RightLength o ∧ ¬ OnlyBits o ∧ e = .invalidBitValue) ∨
    (RightLength o ∧ OnlyBits o ∧ FirstError e rest)

/-- Element `i` of a vector as a number, 0 or 1 (R8). -/
def el {n : Nat} (v : BitVec n) (i : Nat) : Nat := (v.getLsbD i).toNat

/-- The offset `k`: 0 if even parity, else 1 (R24). -/
def offset (ep : Bool) : Nat := if ep then 0 else 1

/-- The number of elements equal to 1. -/
def ones {n : Nat} (v : BitVec n) : Nat := (toBools v).countP id

/-- The XOR, as numbers, of the positions (1-indexed) at which the vector has a 1 (R132). -/
def positionsXor {n : Nat} (v : BitVec n) : Nat :=
  (List.range n).foldl (fun acc i => if v.getLsbD i then acc ^^^ (i + 1) else acc) 0

/-- A valid codeword of a convention: ASSEMBLE of some data word and its parity (R25). -/
def ValidCodeword (ep : Bool) (c : Codeword) : Prop :=
  ∃ d, c = assemble d (computeParity d ep)

/-- The store holds nothing, or the six values of one run from one snapshot of the inputs (R32, R39). -/
def CoherentStore (p : Published) : Prop :=
  p = .absent ∨ ∃ d m ep, p = (simulateRun d m ep).published

/-- The invariant of the machine: its published store is coherent. -/
def Invariant (s : State) : Prop := CoherentStore s.pub

end Sys2Proof.Safety
end

