-- ==== Sys2Proof/Certificates/Slice0/Obligations.lean ====
section
/-! DEFINITION. The statements for the provers. A vector operand `v` is written raw as `rawOf v`;
`el v i` is its element `i` as a number. "Gives" and "Raises" (Safety) are equations on `exec`: the
answer is the next state that differs from `s` in the reply alone. -/

open Sys2Proof Sys2Proof.Machine Sys2Proof.Safety

/-! ### The wire level (R80 to R92: the spec's decisions D2, D5, D6; logs 15, 18) -/

/-- Encode then decode is the identity on every well-formed invocation (`30_encoding.md` R87, marked
derived). -/
def Obligations.DecodeOfEncodeIsIdentity : Prop :=
  ∀ i : Instr, i.wellFormed = true → ∃ cmd, encode i = some cmd ∧ decodeCmd cmd = .ok i

/-- Decode then encode is the identity, and what is decoded is well formed (R87, marked derived). -/
def Obligations.EncodeOfDecodeIsIdentity : Prop :=
  ∀ cmd i, decodeCmd cmd = .ok i → i.wellFormed = true ∧ encode i = some cmd

/-- A command word is an operation exactly when it matches a row of the table of R81, it matches at
most one, and its operation code is then that row's (R82, a decision). -/
def Obligations.DecodesExactlyTheTableRows : Prop :=
  ∀ cmd : Cmd,
    ((∃ i, decodeCmd cmd = .ok i) ↔
      ∃ row ∈ ([(0x10000, 0xF7FF0), (0x20000, 0xFF8F0), (0x30000, 0xFFF80), (0x40000, 0xF8080),
          (0x50000, 0xF7F80), (0x60000, 0xFFFF8), (0x70000, 0xFF880), (0x80000, 0xF7FF0),
          (0x90000, 0xF7F80), (0xA0000, 0xFFFFF)] : List (Cmd × Cmd)),
        cmd &&& row.2 = row.1) ∧
    ∀ o o' : Op, o.matches cmd = true → o'.matches cmd = true →
      o = o' ∧ cmd.extractLsb' 16 4 = o.code

/-- The worked encodings of R92 and the reserved words of `95_test_vectors.md` T8. -/
def Obligations.WorkedCommandWordsDecode : Prop :=
  decodeCmd 0x18005 = .ok (.parity [1, 0, 1, 0] true) ∧
  decodeCmd 0x20505 = .ok (.assemble [1, 0, 1, 0] [1, 0, 1]) ∧
  decodeCmd 0x3002D = .ok (.disassemble [1, 0, 1, 1, 0, 1, 0]) ∧
  decodeCmd 0x4102D = .ok (.applyError [1, 0, 1, 1, 0, 1, 0] [0, 0, 0, 0, 1, 0, 0]) ∧
  decodeCmd 0x5803D = .ok (.syndrome [1, 0, 1, 1, 1, 1, 0] true) ∧
  decodeCmd 0x60005 = .ok (.locate [1, 0, 1]) ∧
  decodeCmd 0x7053D = .ok (.correct [1, 0, 1, 1, 1, 1, 0] 5) ∧
  decodeCmd 0x88005 = .ok (.encode [1, 0, 1, 0] true) ∧
  decodeCmd 0x9803D = .ok (.decode [1, 0, 1, 1, 1, 1, 0] true) ∧
  decodeCmd 0xA0000 = .ok .simulate ∧
  (∀ cmd ∈ ([0x00000, 0xB0000, 0xFFFFF] : List Cmd), decodeCmd cmd = .error .reservedOp) ∧
  ∀ cmd ∈ ([0x1801F, 0x28700, 0x3017F, 0x60008, 0x7083D, 0xA0001, 0x18085] : List Cmd),
    decodeCmd cmd = .error .mustBeZeroBitSet

/-- The result fields of the worked encodings (R86, R92): issuing the word answers status 0 and these
`RA` and `RB`, in every state, the block unchanged. -/
def Obligations.WorkedCommandWordsGiveTheirResultFields : Prop :=
  ∀ row ∈ ([(0x18005, 0x05, 0x00), (0x20505, 0x2D, 0x00), (0x3002D, 0x05, 0x05),
      (0x4102D, 0x3D, 0x00), (0x5803D, 0x05, 0x00), (0x60005, 0x05, 0x00), (0x7053D, 0x2D, 0x00),
      (0x88005, 0x2D, 0x00), (0x9803D, 0x2D, 0x05), (0x9002D, 0x6D, 0x07)] :
      List (Cmd × Field × Field)),
    ∀ s : State, ∃ t, runMove (.command row.1) s = .next t ∧ SameBlock s t ∧
      t.reply.status = some 0 ∧ t.reply.fields = some row.2

/-! ### One step -/

/-- A step with a command word pending runs exactly the operation it decodes to, on the state with that
move taken off the host's list, where the operation has a wire-level form: SIMULATE's inputs are well
formed. SIMULATE by command word on a malformed input is refused, since R70 and R86 let no error arise
at the wire level (the model's reading, log 7, DEDUCED). A step with a call-level invocation pending
runs exactly it, whatever the inputs. The list of pending moves is the model's own (log 3). -/
def Obligations.StepRunsTheIssuedInvocation : Prop :=
  (∀ (s : State) cmd rest i, s.script = .command cmd :: rest → decodeCmd cmd = .ok i →
    (i = .simulate → s.inputWord.isVector 4 = true ∧ s.errorMask.isVector 7 = true) →
    step s = exec i { s with script := rest }) ∧
  (∀ (s : State) cmd rest, s.script = .command cmd :: rest → decodeCmd cmd = .ok .simulate →
    (s.inputWord.isVector 4 && s.errorMask.isVector 7) = false →
    step s = .refused .malformedInputOnWire) ∧
  ∀ (s : State) i rest, s.script = .call i :: rest → step s = exec i { s with script := rest }

/-- A step with a reserved command word pending is refused by name, with no next state (R83, U4, a
decision; log 8). -/
def Obligations.StepRefusesAReservedCommand : Prop :=
  ∀ (s : State) cmd rest e, s.script = .command cmd :: rest → decodeCmd cmd = .error e →
    step s = .refused (.reservedCommand cmd)

/-- The step after `withFetchWord` runs exactly the table word's instruction (log 4: the model's choice of
how an instruction comes to be issued), SIMULATE's inputs being well formed, without which it has no
wire-level form (log 7). -/
def Obligations.StepRunsTheFetchWord : Prop :=
  ∀ (s : State) nbits w i, decodeTableWord nbits w = some i →
    (i = .simulate → s.inputWord.isVector 4 = true ∧ s.errorMask.isVector 7 = true) →
    step (s.withFetchWord nbits w) = exec i s

/-- A step with a host write pending changes that input, takes the move off the list, hands back
nothing, and changes nothing else; the published values stay (R30, R192, R196). With nothing pending
a step changes nothing (log 5, the model's choice). -/
def Obligations.StepMakesHostWritesOnly : Prop :=
  (∀ (s : State) raw rest, s.script = .write (.inputWord raw) :: rest →
    step s = .next { s with inputWord := raw, script := rest, reply := .nothing }) ∧
  (∀ (s : State) raw rest, s.script = .write (.errorMask raw) :: rest →
    step s = .next { s with errorMask := raw, script := rest, reply := .nothing }) ∧
  (∀ (s : State) even rest, s.script = .write (.evenParity even) :: rest →
    step s = .next { s with evenParity := even, script := rest, reply := .nothing }) ∧
  (∀ s : State, s.script = [] → step s = .next s)

/-- A step with a host read pending, by name or by key index: the field of the store with that name is
handed back whole and nothing else changes; an absent one is refused, and so are the indices 6 and 7
(R31, R39, R54, R56, U1, U5; logs 2, 3, 15). -/
def Obligations.StepReadsAPublishedEntry : Prop :=
  ReadsBack .data 0 (fun p => p.data.map .data) ∧
  ReadsBack .parity 1 (fun p => p.parity.map .check) ∧
  ReadsBack .codeword 2 (fun p => p.codeword.map .code) ∧
  ReadsBack .receivedCodeword 3 (fun p => p.receivedCodeword.map .code) ∧
  ReadsBack .syndrome 4 (fun p => p.syndrome.map .check) ∧
  ReadsBack .correctedData 5 (fun p => p.correctedData.map .data) ∧
  ∀ (s : State) (k : BitVec 3) rest, s.script = .readIndex k :: rest → (k = 6 ∨ k = 7) →
    step s = .refused (.noSuchKey k)

/-! ### PARITY, ASSEMBLE, DISASSEMBLE, APPLY_ERROR -/

/-- R100. PARITY completes on every data word under either convention with the three sums mod 2,
equally the three XORs, changes nothing but the reply, and a malformed operand raises an error. -/
def Obligations.ParityComputesTheCheckBits : Prop :=
  (∀ (d : DataWord) (ep : Bool) (s : State), ∃ p : CheckWord,
    exec (.parity (rawOf d) ep) s = .next { s with reply := .returned (.parity p) } ∧
    el p 0 = (el d 0 + el d 1 + el d 3 + offset ep) % 2 ∧
    el p 1 = (el d 0 + el d 2 + el d 3 + offset ep) % 2 ∧
    el p 2 = (el d 1 + el d 2 + el d 3 + offset ep) % 2 ∧
    p.getLsbD 0 = (d.getLsbD 0 ^^ d.getLsbD 1 ^^ d.getLsbD 3 ^^ !ep) ∧
    p.getLsbD 1 = (d.getLsbD 0 ^^ d.getLsbD 2 ^^ d.getLsbD 3 ^^ !ep) ∧
    p.getLsbD 2 = (d.getLsbD 1 ^^ d.getLsbD 2 ^^ d.getLsbD 3 ^^ !ep)) ∧
  ∀ (raw : Raw) (ep : Bool) (s : State), raw.isVector 4 = false →
    ∃ e, exec (.parity raw ep) s = .next { s with reply := .raised e }

/-- R101. Flipping the convention complements every bit of the parity, and changes nothing else. (The
rule's last sentence, marked derived, is ParityMakesTheCoveredOnesEven.) -/
def Obligations.ConventionComplementsEveryParityBit : Prop :=
  ∀ (d : DataWord) (s : State), ∃ pe po : CheckWord,
    Gives (.parity (rawOf d) true) s (.parity pe) ∧ Gives (.parity (rawOf d) false) s (.parity po) ∧
    ∀ i, i < 3 → po.getLsbD i = !pe.getLsbD i

/-- The last sentence of R101 with R102, both marked derived: among the positions of the codeword whose
number has weight bit `i` set, the number of ones is even under even parity and odd under odd. -/
def Obligations.ParityMakesTheCoveredOnesEven : Prop :=
  ∀ (d : DataWord) (ep : Bool) (s : State), ∃ c : Codeword,
    Gives (.encode (rawOf d) ep) s (.codeword c) ∧
    ∀ i, i < 3 →
      (((List.range 7).filter fun j => (j + 1).testBit i).map (el c)).sum % 2 = offset ep

/-- R110. ASSEMBLE completes on every pair of operands with this wiring, changes nothing but the reply,
and a malformed operand raises an error. -/
def Obligations.AssembleInterleaves : Prop :=
  (∀ (d : DataWord) (p : CheckWord) (s : State), ∃ c : Codeword,
    exec (.assemble (rawOf d) (rawOf p)) s = .next { s with reply := .returned (.codeword c) } ∧
    c.getLsbD 0 = p.getLsbD 0 ∧ c.getLsbD 1 = p.getLsbD 1 ∧ c.getLsbD 2 = d.getLsbD 0 ∧
    c.getLsbD 3 = p.getLsbD 2 ∧ c.getLsbD 4 = d.getLsbD 1 ∧ c.getLsbD 5 = d.getLsbD 2 ∧
    c.getLsbD 6 = d.getLsbD 3) ∧
  ∀ (data par : Raw) (s : State), (data.isVector 4 && par.isVector 3) = false →
    ∃ e, exec (.assemble data par) s = .next { s with reply := .raised e }

/-- R111. DISASSEMBLE completes on every 7-bit word with this wiring, changes nothing but the reply,
and a malformed operand raises an error. -/
def Obligations.DisassembleSplits : Prop :=
  (∀ (c : Codeword) (s : State), ∃ (d : DataWord) (p : CheckWord),
    exec (.disassemble (rawOf c)) s = .next { s with reply := .returned (.split d p) } ∧
    d.getLsbD 0 = c.getLsbD 2 ∧ d.getLsbD 1 = c.getLsbD 4 ∧ d.getLsbD 2 = c.getLsbD 5 ∧
    d.getLsbD 3 = c.getLsbD 6 ∧
    p.getLsbD 0 = c.getLsbD 0 ∧ p.getLsbD 1 = c.getLsbD 1 ∧ p.getLsbD 2 = c.getLsbD 3) ∧
  ∀ (raw : Raw) (s : State), raw.isVector 7 = false →
    ∃ e, exec (.disassemble raw) s = .next { s with reply := .raised e }

/-- R112. DISASSEMBLE of ASSEMBLE gives both operands back, for every pair, the computed parity among
them. -/
def Obligations.DisassembleInvertsAssemble : Prop :=
  ∀ (d : DataWord) (s : State),
    (∀ p : CheckWord, ∃ c, Gives (.assemble (rawOf d) (rawOf p)) s (.codeword c) ∧
      Gives (.disassemble (rawOf c)) s (.split d p)) ∧
    ∀ ep, ∃ p c, Gives (.parity (rawOf d) ep) s (.parity p) ∧
      Gives (.assemble (rawOf d) (rawOf p)) s (.codeword c) ∧
      Gives (.disassemble (rawOf c)) s (.split d p)

/-- R113 (marked derived). ASSEMBLE of DISASSEMBLE gives every 7-bit word back. -/
def Obligations.AssembleInvertsDisassemble : Prop :=
  ∀ (c : Codeword) (s : State), ∃ d p, Gives (.disassemble (rawOf c)) s (.split d p) ∧
    Gives (.assemble (rawOf d) (rawOf p)) s (.codeword c)

/-- R120. APPLY_ERROR completes on every pair of 7-bit words with the exclusive or of each pair of
elements, changes nothing but the reply, and a malformed operand raises an error. -/
def Obligations.ApplyErrorIsExclusiveOr : Prop :=
  (∀ (c : Codeword) (m : ErrorMask) (s : State), ∃ r : Codeword,
    exec (.applyError (rawOf c) (rawOf m)) s = .next { s with reply := .returned (.received r) } ∧
    ∀ i, i < 7 → r.getLsbD i = (c.getLsbD i ^^ m.getLsbD i)) ∧
  ∀ (c m : Raw) (s : State), (c.isVector 7 && m.isVector 7) = false →
    ∃ e, exec (.applyError c m) s = .next { s with reply := .raised e }

/-- R121. A mask of all zeros is the identity. -/
def Obligations.ZeroMaskIsTheIdentity : Prop :=
  ∀ (c : Codeword) (s : State),
    Gives (.applyError (rawOf c) [0, 0, 0, 0, 0, 0, 0]) s (.received c)

/-- R122 (marked derived). APPLY_ERROR undoes itself, is symmetric, and masks add up. -/
def Obligations.ApplyErrorUndoesItself : Prop :=
  ∀ (c m m' : Codeword) (s : State), ∃ r,
    Gives (.applyError (rawOf c) (rawOf m)) s (.received r) ∧
    Gives (.applyError (rawOf m) (rawOf c)) s (.received r) ∧
    Gives (.applyError (rawOf r) (rawOf m)) s (.received c) ∧
    ∃ r', Gives (.applyError (rawOf r) (rawOf m')) s (.received r') ∧
      Gives (.applyError (rawOf c) (rawOf (m ^^^ m'))) s (.received r')

/-- R123 (marked derived). A single-bit mask complements exactly its position, as CORRECT at that
position does, and a mask changes as many positions as it has ones. -/
def Obligations.SingleBitMaskFlipsOnePosition : Prop :=
  (∀ (c : Codeword) (p : ErrorPosition) (s : State), p.val ≠ 0 → ∃ r : Codeword,
    Gives (.applyError (rawOf c) (rawOf (unit7 p.val))) s (.received r) ∧
    Gives (.correct (rawOf c) p.val) s (.corrected r) ∧
    ∀ i, i < 7 → r.getLsbD i = if i + 1 = p.val then !c.getLsbD i else c.getLsbD i) ∧
  ∀ (c : Codeword) (m : ErrorMask) (s : State), ∃ r : Codeword,
    Gives (.applyError (rawOf c) (rawOf m)) s (.received r) ∧
    ((List.range 7).filter fun i => r.getLsbD i != c.getLsbD i).length = ones m

/-! ### SYNDROME, LOCATE, CORRECT -/

/-- R130, the contract and the algorithm: SYNDROME completes on every 7-bit word under either convention
with the parity recomputed from the received data XOR the received parity, changes nothing but the
reply, and a malformed operand raises an error. -/
def Obligations.SyndromeComparesParities : Prop :=
  (∀ (r : Codeword) (ep : Bool) (s : State), ∃ d rp p,
    Gives (.disassemble (rawOf r)) s (.split d rp) ∧ Gives (.parity (rawOf d) ep) s (.parity p) ∧
    ∃ y : Syndrome,
      exec (.syndrome (rawOf r) ep) s = .next { s with reply := .returned (.syndrome y) } ∧
      ∀ i, i < 3 → y.getLsbD i = (p.getLsbD i ^^ rp.getLsbD i)) ∧
  ∀ (raw : Raw) (ep : Bool) (s : State), raw.isVector 7 = false →
    ∃ e, exec (.syndrome raw ep) s = .next { s with reply := .raised e }

/-- The written-out equations of R130 (marked derived), and R133 (marked derived): under odd parity
every element is the complement. -/
def Obligations.SyndromeEquationsOnTheReceivedWord : Prop :=
  ∀ (r : Codeword) (ep : Bool) (s : State), ∃ y y' : Syndrome,
    Gives (.syndrome (rawOf r) ep) s (.syndrome y) ∧
    Gives (.syndrome (rawOf r) (!ep)) s (.syndrome y') ∧
    el y 0 = (el r 0 + el r 2 + el r 4 + el r 6 + offset ep) % 2 ∧
    el y 1 = (el r 1 + el r 2 + el r 5 + el r 6 + offset ep) % 2 ∧
    el y 2 = (el r 3 + el r 4 + el r 5 + el r 6 + offset ep) % 2 ∧
    ∀ i, i < 3 → y'.getLsbD i = !y.getLsbD i

/-- The last sentence of R131 and R134 (marked derived): a zero syndrome means a valid codeword, and no
word is valid under both conventions (R25). -/
def Obligations.ZeroSyndromeMeansValidCodeword : Prop :=
  (∀ (r : Codeword) (ep : Bool) (s : State),
    Gives (.syndrome (rawOf r) ep) s (.syndrome 0) ↔ ValidCodeword ep r) ∧
  ∀ c : Codeword, ¬ (ValidCodeword true c ∧ ValidCodeword false c)

/-- R132 (marked derived). The closed form: under even parity the syndrome's value is the XOR of the
positions of the word's ones; for a valid codeword with a mask applied it is that of the mask's
ones, whatever the data and the convention. -/
def Obligations.SyndromeIsTheXorOfPositions : Prop :=
  (∀ (r : Codeword) (s : State), ∃ y : Syndrome,
    Gives (.syndrome (rawOf r) true) s (.syndrome y) ∧ y.toNat = positionsXor r) ∧
  ∀ (c : Codeword) (m : ErrorMask) (ep : Bool) (s : State), ValidCodeword ep c → ∃ r y,
    Gives (.applyError (rawOf c) (rawOf m)) s (.received r) ∧
    Gives (.syndrome (rawOf r) ep) s (.syndrome y) ∧ y.toNat = positionsXor m

/-- R140. LOCATE completes on every syndrome with the weighted sum, which is a bijection onto 0..7,
changes nothing but the reply, and a malformed operand raises an error. -/
def Obligations.LocateIsTheWeightedSum : Prop :=
  (∀ (y : Syndrome) (s : State), ∃ n : ErrorPosition,
    exec (.locate (rawOf y)) s = .next { s with reply := .returned (.position n) } ∧
    n.val = 4 * el y 2 + 2 * el y 1 + el y 0) ∧
  (∀ (n : ErrorPosition) (s : State), ∃ y : Syndrome,
    Gives (.locate (rawOf y)) s (.position n) ∧
    ∀ y' : Syndrome, Gives (.locate (rawOf y')) s (.position n) → y' = y) ∧
  ∀ (raw : Raw) (s : State), raw.isVector 3 = false →
    ∃ e, exec (.locate raw) s = .next { s with reply := .raised e }

/-- R141. CORRECT completes on every 7-bit word and every position 0..7: unchanged at 0, else a copy with
bit `position - 1` complemented and every other copied; nothing but the reply changes, and a
malformed word raises an error at every position 0..7. (A position outside 0..7 is
CorrectRefusesAPositionOutOfRange.) -/
def Obligations.CorrectFlipsTheBitItIsGiven : Prop :=
  (∀ (r : Codeword) (n : Int) (s : State), 0 ≤ n → n ≤ 7 → ∃ c : Codeword,
    exec (.correct (rawOf r) n) s = .next { s with reply := .returned (.corrected c) } ∧
    (n = 0 → c = r) ∧
    (n ≠ 0 → ∀ i : Nat, i < 7 →
      c.getLsbD i = if (i : Int) = n - 1 then !r.getLsbD i else r.getLsbD i)) ∧
  ∀ (raw : Raw) (n : Int) (s : State), raw.isVector 7 = false → 0 ≤ n → n ≤ 7 →
    ∃ e, exec (.correct raw n) s = .next { s with reply := .raised e }

/-- U3 (a decision, D15; log 9). CORRECT at a position outside 0..7 is refused: it neither wraps nor clamps
nor reports an error class. With a malformed word besides, the word's error is answered, the word
being checked first (the model's reading, log 9, DEDUCED). -/
def Obligations.CorrectRefusesAPositionOutOfRange : Prop :=
  (∀ (r : Codeword) (n : Int) (s : State), (n < 0 ∨ 7 < n) →
    exec (.correct (rawOf r) n) s = .refused (.positionOutOfRange n)) ∧
  ∀ (raw : Raw) (n : Int) (s : State), raw.isVector 7 = false → (n < 0 ∨ 7 < n) →
    ∃ e, exec (.correct raw n) s = .next { s with reply := .raised e }

/-- R142. Single-error correction: with at most one bit flipped by the channel (`p` = 0 is none), the
located position is the one flipped and CORRECT restores the codeword, for every data word and
either convention, used throughout. -/
def Obligations.SingleErrorIsLocatedAndCorrected : Prop :=
  ∀ (d : DataWord) (ep : Bool) (p : ErrorPosition) (s : State), ∃ par c r y,
    Gives (.parity (rawOf d) ep) s (.parity par) ∧
    Gives (.assemble (rawOf d) (rawOf par)) s (.codeword c) ∧
    Gives (.applyError (rawOf c) (rawOf (if p.val = 0 then 0 else unit7 p.val))) s (.received r) ∧
    Gives (.syndrome (rawOf r) ep) s (.syndrome y) ∧
    Gives (.locate (rawOf y)) s (.position p) ∧
    Gives (.correct (rawOf r) p.val) s (.corrected c)

/-- R131, R143. With a zero mask an error-free codeword passes through unchanged: its syndrome is all zero
under the convention it was built under; LOCATE of the zero syndrome is 0 and CORRECT at 0 changes
no word. (The last sentence of R131, marked derived, is ZeroSyndromeMeansValidCodeword.) -/
def Obligations.ErrorFreeCodewordPassesUnchanged : Prop :=
  (∀ (d : DataWord) (ep : Bool) (s : State), ∃ par c,
    Gives (.parity (rawOf d) ep) s (.parity par) ∧
    Gives (.assemble (rawOf d) (rawOf par)) s (.codeword c) ∧
    Gives (.applyError (rawOf c) [0, 0, 0, 0, 0, 0, 0]) s (.received c) ∧
    Gives (.syndrome (rawOf c) ep) s (.syndrome 0)) ∧
  (∀ s : State, Gives (.locate [0, 0, 0]) s (.position 0)) ∧
  ∀ (c : Codeword) (s : State), Gives (.correct (rawOf c) 0) s (.corrected c)

/-- R144 (marked derived). Two flipped bits `p`, `q`: the decoder flips the third position `p XOR q`,
which was right; the result is a valid codeword that differs from the one sent in exactly the three
positions, and its data differs from the data sent. -/
def Obligations.DoubleErrorFlipsAThirdPosition : Prop :=
  ∀ (d : DataWord) (ep : Bool) (p q : ErrorPosition) (s : State),
    p.val ≠ 0 → q.val ≠ 0 → p ≠ q → ∃ c c' d' par' t,
      Gives (.encode (rawOf d) ep) s (.codeword c) ∧
      Gives (.decode (rawOf (c ^^^ unit7 p.val ^^^ unit7 q.val)) ep) s (.decoded c' t) ∧
      t.val = p.val ^^^ q.val ∧ t.val ≠ 0 ∧ t ≠ p ∧ t ≠ q ∧
      c' = c ^^^ unit7 p.val ^^^ unit7 q.val ^^^ unit7 t.val ∧ ValidCodeword ep c' ∧
      Gives (.disassemble (rawOf c')) s (.split d' par') ∧ d' ≠ d

/-- R144 and R145 (marked derived). With two or more bits flipped the decoder completes with a valid
codeword of the convention that is not the one sent, and whose data is not the data sent. -/
def Obligations.MultipleErrorsDecodeToAWrongCodeword : Prop :=
  ∀ (d : DataWord) (ep : Bool) (m : ErrorMask) (s : State), 2 ≤ ones m → ∃ c c' t d' par',
    Gives (.encode (rawOf d) ep) s (.codeword c) ∧
    Gives (.decode (rawOf (c ^^^ m)) ep) s (.decoded c' t) ∧
    ValidCodeword ep c' ∧ c' ≠ c ∧ t.val = positionsXor m ∧
    Gives (.disassemble (rawOf c')) s (.split d' par') ∧ d' ≠ d

/-- R146 (marked derived). Every 7-bit word is within one flip of exactly one valid codeword of a
convention, the decoder answers that one, and its syndrome is zero. -/
def Obligations.DecoderFindsTheNearestCodeword : Prop :=
  ∀ (r : Codeword) (ep : Bool) (s : State), ∃ c t,
    Gives (.decode (rawOf r) ep) s (.decoded c t) ∧
    Gives (.syndrome (rawOf c) ep) s (.syndrome 0) ∧
    ∀ c', (ValidCodeword ep c' ∧ ones (c' ^^^ r) ≤ 1) ↔ c' = c

/-- R194 (marked derived). An error-free codeword of one convention decoded under the other has syndrome
`[1,1,1]`, is "corrected" at position 7, and its `data[3]` comes out complemented; with one channel
error at `p` the bit at `t = p XOR 7` is the one flipped, and none for `p = 7`. -/
def Obligations.ConventionMismatchShiftsThePosition : Prop :=
  ∀ (d : DataWord) (ep : Bool) (s : State), ∃ c,
    Gives (.encode (rawOf d) ep) s (.codeword c) ∧
    Gives (.syndrome (rawOf c) (!ep)) s (.syndrome 7) ∧
    (∃ d' par', Gives (.decode (rawOf c) (!ep)) s (.decoded (c ^^^ unit7 7) 7) ∧
      Gives (.disassemble (rawOf (c ^^^ unit7 7))) s (.split d' par') ∧
      ∀ i, i < 4 → d'.getLsbD i = if i = 3 then !d.getLsbD i else d.getLsbD i) ∧
    ∀ p : ErrorPosition, p.val ≠ 0 → ∃ c' t,
      Gives (.decode (rawOf (c ^^^ unit7 p.val)) (!ep)) s (.decoded c' t) ∧ t.val = p.val ^^^ 7 ∧
      c' = c ^^^ unit7 p.val ^^^ (if t.val = 0 then 0 else unit7 t.val)

/-! ### ENCODE, DECODE, SIMULATE -/

/-- R150, the composition. ENCODE completes on every data word under either convention with ASSEMBLE of
the data and its PARITY, changes nothing but the reply, and a malformed operand raises an error. -/
def Obligations.EncodeIsAssembleAfterParity : Prop :=
  (∀ (d : DataWord) (ep : Bool) (s : State), ∃ p c,
    Gives (.parity (rawOf d) ep) s (.parity p) ∧
    Gives (.assemble (rawOf d) (rawOf p)) s (.codeword c) ∧
    exec (.encode (rawOf d) ep) s = .next { s with reply := .returned (.codeword c) }) ∧
  ∀ (raw : Raw) (ep : Bool) (s : State), raw.isVector 4 = false →
    ∃ e, exec (.encode raw ep) s = .next { s with reply := .raised e }

/-- R151. DECODE completes on every 7-bit word under either convention with SYNDROME, LOCATE, CORRECT in
turn, changes nothing but the reply, and a malformed operand raises an error. That it hands back the
position beside the corrected word is the spec's own choice (decision D4; log 18). -/
def Obligations.DecodeIsSyndromeLocateCorrect : Prop :=
  (∀ (r : Codeword) (ep : Bool) (s : State), ∃ y n c,
    Gives (.syndrome (rawOf r) ep) s (.syndrome y) ∧ Gives (.locate (rawOf y)) s (.position n) ∧
    Gives (.correct (rawOf r) n.val) s (.corrected c) ∧
    exec (.decode (rawOf r) ep) s = .next { s with reply := .returned (.decoded c n) }) ∧
  ∀ (raw : Raw) (ep : Bool) (s : State), raw.isVector 7 = false →
    ∃ e, exec (.decode raw ep) s = .next { s with reply := .raised e }

/-- R152 and R153. With well-formed inputs SIMULATE completes: the eight steps in order, each the
component operation on the values before it, and the six values published together; the inputs, the
host's list and everything else unchanged. (A malformed input is FailedSimulatePublishesNothing.) -/
def Obligations.SimulatePublishesItsRun : Prop :=
  ∀ (s : State) (d : DataWord) (m : ErrorMask), s.inputWord = rawOf d → s.errorMask = rawOf m →
    ∃ par c r y n cor d' par',
      Gives (.parity (rawOf d) s.evenParity) s (.parity par) ∧
      Gives (.assemble (rawOf d) (rawOf par)) s (.codeword c) ∧
      Gives (.applyError (rawOf c) (rawOf m)) s (.received r) ∧
      Gives (.syndrome (rawOf r) s.evenParity) s (.syndrome y) ∧
      Gives (.locate (rawOf y)) s (.position n) ∧
      Gives (.correct (rawOf r) n.val) s (.corrected cor) ∧
      Gives (.disassemble (rawOf cor)) s (.split d' par') ∧
      exec .simulate s = .next { s with
        pub := ⟨some d, some par, some c, some r, some y, some d'⟩, reply := .returned .done }

/-- With a malformed input SIMULATE answers an error and publishes nothing (R154): every entry keeps its
value or its absence, which rests on decision D12 (U6; log 11, DEDUCED); and the failure has no effect
on any later invocation. -/
def Obligations.FailedSimulatePublishesNothing : Prop :=
  ∀ s : State, (s.inputWord.isVector 4 && s.errorMask.isVector 7) = false →
    ∃ e, exec .simulate s = .next { s with reply := .raised e } ∧
      ∀ i, exec i { s with reply := .raised e } = exec i s

/-- R155. A run is a function of its three inputs alone: two states with the same inputs, whatever their
stores and histories, run to the same outcome and, on success, the same published values. -/
def Obligations.SimulateDependsOnItsInputsAlone : Prop :=
  ∀ s s' : State, SameInputs s s' → ∃ t t', exec .simulate s = .next t ∧
    exec .simulate s' = .next t' ∧ t'.reply = t.reply ∧
    (t.reply = .returned .done → t'.pub = t.pub)

/-- R156 (marked derived). The closed form of a run: data and parity of the input word, its codeword, codeword
XOR mask, as syndrome the number `t`, the XOR of the mask's positions, and as corrected data the data
part of codeword XOR mask XOR `e`, where `e` is `unit7(t)`, or zero for `t` = 0; which is the data
XOR the data part of mask XOR `e`, so that the residual depends on the mask alone. -/
def Obligations.SimulateClosedForm : Prop :=
  ∀ (s : State) (d : DataWord) (m : ErrorMask), s.inputWord = rawOf d → s.errorMask = rawOf m →
    ∃ t par c y x par' e res par'', exec .simulate s = .next t ∧
      Gives (.parity (rawOf d) s.evenParity) s (.parity par) ∧
      Gives (.encode (rawOf d) s.evenParity) s (.codeword c) ∧
      t.pub.data = some d ∧ t.pub.parity = some par ∧ t.pub.codeword = some c ∧
      t.pub.receivedCodeword = some (c ^^^ m) ∧
      t.pub.syndrome = some y ∧ y.toNat = positionsXor m ∧ t.pub.correctedData = some x ∧
      e = (if positionsXor m = 0 then 0 else unit7 (positionsXor m)) ∧
      Gives (.disassemble (rawOf (c ^^^ m ^^^ e))) s (.split x par') ∧
      Gives (.disassemble (rawOf (m ^^^ e))) s (.split res par'') ∧ x = d ^^^ res

/-- R157 (marked derived). Changing the convention and nothing else complements the published parity and
the codeword elements 0, 1, 3, and leaves data, syndrome and corrected data. -/
def Obligations.ConventionSymmetryOfARun : Prop :=
  ∀ (s : State) (d : DataWord) (m : ErrorMask), s.inputWord = rawOf d → s.errorMask = rawOf m →
    ∃ t t' par par' c c', exec .simulate s = .next t ∧
      exec .simulate { s with evenParity := !s.evenParity } = .next t' ∧
      t.pub.parity = some par ∧ t'.pub.parity = some par' ∧
      (∀ i, i < 3 → par'.getLsbD i = !par.getLsbD i) ∧
      t.pub.codeword = some c ∧ t'.pub.codeword = some c' ∧
      (∀ i, i < 7 → c'.getLsbD i =
        if i = 0 ∨ i = 1 ∨ i = 3 then !c.getLsbD i else c.getLsbD i) ∧
      t.pub.receivedCodeword = some (c ^^^ m) ∧ t'.pub.receivedCodeword = some (c' ^^^ m) ∧
      t'.pub.data = t.pub.data ∧ t'.pub.syndrome = t.pub.syndrome ∧
      t'.pub.correctedData = t.pub.correctedData

/-- R159 with R142 (its part on two or more ones marked derived). SIMULATE completes for every mask, and
the corrected data is the data sent exactly when the mask has at most one 1. -/
def Obligations.SimulateRecoversDataIffAtMostOneFlip : Prop :=
  ∀ (s : State) (d : DataWord) (m : ErrorMask), s.inputWord = rawOf d → s.errorMask = rawOf m →
    ∃ t x, exec .simulate s = .next t ∧ t.reply = .returned .done ∧
      t.pub.correctedData = some x ∧ (x = d ↔ ones m ≤ 1)

/-! ### Errors -/

/-- R171. An operand whose length is not that of its role raises InvalidLength, in every operation and
for each of its operands (all elements being 0 or 1, so that no other error applies, and CORRECT's
position one of 0..7; outside see CorrectRefusesAPositionOutOfRange). -/
def Obligations.WrongLengthRaisesInvalidLength : Prop :=
  ∀ (i : Instr) (s : State), LegalPosition i →
    (∀ o ∈ checkedOperands s i, OnlyBits o) →
    (∃ o ∈ checkedOperands s i, ¬ RightLength o) → Raises i s .invalidLength

/-- R172. An element other than 0 and 1 raises InvalidBitValue, in every operation and for each of its
operands (all lengths being right, so that no other error applies, and CORRECT's position one of 0..7;
outside see CorrectRefusesAPositionOutOfRange). -/
def Obligations.OtherElementRaisesInvalidBitValue : Prop :=
  ∀ (i : Instr) (s : State), LegalPosition i →
    (∀ o ∈ checkedOperands s i, RightLength o) →
    (∃ o ∈ checkedOperands s i, ¬ OnlyBits o) → Raises i s .invalidBitValue

/-- R176 (a decision, D8; log 10). Operands in written order, length before values, the first failure is
the one reported, for CORRECT whatever its position (log 9, DEDUCED); and with no malformed operand no
error is reported. -/
def Obligations.FirstFailureIsTheOneReported : Prop :=
  ∀ (i : Instr) (s : State),
    (∀ e, FirstError e (checkedOperands s i) → Raises i s e) ∧
    ((∀ e, ¬ FirstError e (checkedOperands s i)) → ∀ t e, exec i s = .next t → t.reply ≠ .raised e)

/-- An invocation that fails has the error class as its whole result and no effect on the block, and every
later invocation goes as if it had not happened (R173, R180). For SIMULATE, that the values published
earlier stay rests on decision D12 (U6; log 11, DEDUCED). -/
def Obligations.AnErrorHasNoOtherEffect : Prop :=
  ∀ (i : Instr) (s t : State) e, exec i s = .next t → t.reply = .raised e →
    t = { s with reply := .raised e } ∧ SameBlock s t ∧ ∀ j, exec j t = exec j s

/-- R174 (a decision, D7). The status of an invocation's reply: 0 for a result, 1 for InvalidLength, 2 for
InvalidBitValue, never 3. -/
def Obligations.StatusOrdinals : Prop :=
  ∀ (i : Instr) (s t : State), exec i s = .next t →
    (∀ r, t.reply = .returned r → t.reply.status = some 0) ∧
    (t.reply = .raised .invalidLength → t.reply.status = some 1) ∧
    (t.reply = .raised .invalidBitValue → t.reply.status = some 2) ∧
    ∃ n, t.reply.status = some n ∧ n < 3

/-! ### Frames, whole-machine rules, the invariant -/

/-- The frame of the nine component operations (R32; D19): the inputs, all six published entries and the
host's list are unchanged, the reply alone may differ, and it does not depend on the state. -/
def Obligations.ComponentOperationsTouchNoState : Prop :=
  ∀ (i : Instr) (s s' t : State), i ≠ .simulate → exec i s = .next t →
    t = { s with reply := t.reply } ∧ exec i s' = .next { s' with reply := t.reply }

/-- The frame of SIMULATE (R32, R60): the inputs and the host's list are unchanged; on success, the inputs
being two vectors, the store is all of that run's values; on failure it is untouched (decision D12;
log 11, DEDUCED). -/
def Obligations.SimulateWritesOnlyTheStore : Prop :=
  ∀ s : State, ∃ t, exec .simulate s = .next t ∧ SameInputs s t ∧ t.script = s.script ∧
    ((∃ d m, s.inputWord = rawOf d ∧ s.errorMask = rawOf m ∧ t.reply = .returned .done ∧
        t.pub = (simulateRun d m s.evenParity).published) ∨
     ((s.inputWord.isVector 4 && s.errorMask.isVector 7) = false ∧
        ∃ e, t.reply = .raised e ∧ t.pub = s.pub))

/-- R192. The convention is read-only during every invocation, and changing it leaves the published values
and the other inputs as they are. -/
def Obligations.ConventionChangesOnlyByTheHost : Prop :=
  (∀ (i : Instr) (s t : State), exec i s = .next t → t.evenParity = s.evenParity) ∧
  ∀ (s : State) even, ∃ t, runMove (.write (.evenParity even)) s = .next t ∧
    t.evenParity = even ∧ t.pub = s.pub ∧ t.inputWord = s.inputWord ∧ t.errorMask = s.errorMask

/-- The published store changes in no step but a SIMULATE, by call or by its one command word 0xA0000, or a
reset (R32). That 0xA0000 is its one command word is the spec's decision D5 (log 15), and that a reset
empties the store its decision D10 (log 16). -/
def Obligations.OnlySimulateOrResetChangesTheStore : Prop :=
  ∀ s t : State, step s = .next t → t.pub ≠ s.pub → ∃ m rest, s.script = m :: rest ∧
    (m = .call .simulate ∨ m = .command 0xA0000 ∨ m = .reset)

/-- An input changes in no step but the host's write of that input (R30, R32). That a reset keeps the
inputs, which this says too, is the model's reading of R40 (log 16, DEDUCED). -/
def Obligations.OnlyHostWritesChangeAnInput : Prop :=
  ∀ s t : State, step s = .next t →
    (t.inputWord ≠ s.inputWord →
      ∃ rest, s.script = .write (.inputWord t.inputWord) :: rest) ∧
    (t.errorMask ≠ s.errorMask →
      ∃ rest, s.script = .write (.errorMask t.errorMask) :: rest) ∧
    (t.evenParity ≠ s.evenParity →
      ∃ rest, s.script = .write (.evenParity t.evenParity) :: rest)

/-- R55. Reading a published entry has no side effect and may be repeated; writing the same value twice is
writing it once; two SIMULATEs with unchanged inputs are one. -/
def Obligations.ReadsAndRunsAreIdempotent : Prop :=
  (∀ (s t : State) k, runMove (.readName k) s = .next t →
    SameBlock s t ∧ runMove (.readName k) t = .next t) ∧
  (∀ (s t : State) k, runMove (.readIndex k) s = .next t →
    SameBlock s t ∧ runMove (.readIndex k) t = .next t) ∧
  (∀ (s : State) w, ∃ t, runMove (.write w) s = .next t ∧ runMove (.write w) t = .next t) ∧
  ∀ s : State, ∃ t, exec .simulate s = .next t ∧ SameInputs s t ∧ exec .simulate t = .next t

/-- R201. Every invocation terminates with a result or one of the two errors (the position of CORRECT
being an error position; outside 0..7 see CorrectRefusesAPositionOutOfRange). -/
def Obligations.EveryInvocationAnswers : Prop :=
  ∀ (i : Instr) (s : State), LegalPosition i → ∃ t, exec i s = .next t ∧
    ((∃ r, t.reply = .returned r) ∨ ∃ e, t.reply = .raised e)

/-- A step keeps the machine unstoppable (R201; logs 2, 3, 7, 8, 9): from every state whose pending moves are
all harmless (no reserved word, no illegal position, no read; SIMULATE by command word only with
inputs that are and stay well formed) a step answers a next state of the same kind, the move it made
taken off the list; so the list runs to its end. Two parts are the model's choices: with nothing
pending a step answers the same state, the list staying empty (log 5, DESIGN CHOICE); and a reset with
0xA0000 still pending keeps the kind because it keeps the inputs (log 16, DEDUCED, unsafe). -/
def Obligations.HarmlessMovesRunToTheEnd : Prop :=
  ∀ s : State, Unstoppable s →
    (∃ t, step s = .next t ∧ Unstoppable t ∧ t.script = s.script.tail) ∧
    SafeRun s.script.length s

/-- The invariant (R32, R60): the store holds nothing, or the six values of one run from one snapshot; every
step keeps it. -/
def Obligations.StepKeepsTheStoreCoherent : Prop :=
  ∀ s t : State, Invariant s → step s = .next t → Invariant t

/-- What reset leaves (R39, R40, decision D10): with any values of the host's inputs, every published entry
is absent, so the invariant holds; a reset between invocations does the same and leaves the inputs
(log 16). -/
def Obligations.ResetLeavesTheStoreAbsent : Prop :=
  (∀ w m e k, (State.launch w m e).pub.read k = none ∧ Invariant (State.launch w m e)) ∧
  Invariant State.reset ∧
  ∀ (s : State) rest, s.script = .reset :: rest →
    ∃ t, step s = .next t ∧ SameInputs s t ∧ t.pub = .absent ∧ t.script = rest

/-- R39 (a decision, D10). Once present, an entry never becomes absent again but by a reset. -/
def Obligations.PresentEntriesStayPresent : Prop :=
  ∀ (s t : State) k, step s = .next t → s.script.head? ≠ some .reset →
    (s.pub.read k).isSome = true → (t.pub.read k).isSome = true

/-- R23 (its second sentence marked derived). The reversal between the two orders, which the host applies. -/
def Obligations.ReversalIsItsOwnInverse : Prop :=
  ∀ (n : Nat) (v : BitVec n),
    (∀ i, i < n → (rev v).getLsbD i = v.getLsbD (n - 1 - i)) ∧ rev (rev v) = v

/-- At the wire level the status is always 0 (R70, R86, decisions D2 and D6): whatever state a command
word is issued in, if it answers a next state, it hands back a result and no error class. That it
answers one is StepRunsTheIssuedInvocation with the operations' own statements; the refusal on a
malformed input is log 7. -/
def Obligations.CommandWordNeverRaisesAnError : Prop :=
  ∀ (cmd : Cmd) (s t : State), runMove (.command cmd) s = .next t →
    t.reply.status = some 0 ∧ ∃ r, t.reply = .returned r
end

