-- ==== Sys2Proof/Laws/Bits.lean ====
section
/-! SUPPORT. The index-order literals and the vectors they denote. -/

namespace Sys2Proof

/-- The number an index-order sequence of bits folds to has those bits. -/
theorem testBit_foldBits (bs : List Bool) (i : Nat) :
    (bs.foldr (fun (b : Bool) acc => b.toNat + 2 * acc) 0).testBit i = bs.getD i false := by
  induction bs generalizing i with
  | nil => simp
  | cons b bs ih =>
    rw [List.foldr_cons, Nat.add_comm]
    cases i with
    | zero => cases b <;> simp [Nat.testBit_zero]
    | succ i =>
      rw [Nat.testBit_succ, List.getD_cons_succ, ← ih]
      congr 1
      cases b <;> simp
      omega

/-- Bit `i` of a literal is its element `i`. -/
@[simp] theorem getLsbD_ofBools (n : Nat) (bs : List Bool) (i : Nat) :
    (ofBools n bs).getLsbD i = (decide (i < n) && bs.getD i false) := by
  rw [ofBools, BitVec.getLsbD_ofNat, testBit_foldBits]

@[simp] theorem length_toBools {n : Nat} (v : BitVec n) : (toBools v).length = n := by
  simp [toBools]

@[simp] theorem getD_toBools {n : Nat} (v : BitVec n) (i : Nat) :
    (toBools v).getD i false = v.getLsbD i := by
  rw [List.getD_eq_getElem?_getD, toBools, List.getElem?_map]
  by_cases h : i < n
  · simp [h]
  · simp [h, BitVec.getLsbD_of_ge v i (by omega)]

@[simp] theorem ofBools_toBools {n : Nat} (v : BitVec n) : ofBools n (toBools v) = v := by
  apply BitVec.eq_of_getLsbD_eq
  intro i hi
  rw [getLsbD_ofBools, getD_toBools]
  simp [hi]

@[simp] theorem length_rawOf {n : Nat} (v : BitVec n) : (rawOf v).length = n := by
  simp [rawOf]

theorem rawBit_eq_one (b : Bool) : (rawBit b == 1) = b := by cases b <;> rfl

/-- A vector written raw is read back as itself. -/
@[simp] theorem ofRaw_rawOf {n : Nat} (v : BitVec n) : ofRaw n (rawOf v) = v := by
  rw [ofRaw, rawOf, List.map_map]
  conv => rhs; rw [← ofBools_toBools v]
  congr 1
  calc (toBools v).map ((fun x => x == 1) ∘ rawBit)
      = (toBools v).map id := List.map_congr_left fun b _ => rawBit_eq_one b
    _ = toBools v := List.map_id _

/-- Every element of a vector written raw is 0 or 1. -/
theorem rawOf_isBit {n : Nat} (v : BitVec n) :
    (rawOf v).any (fun x => x != 0 && x != 1) = false := by
  rw [List.any_eq_false]
  intro x hx
  obtain ⟨b, -, rfl⟩ := List.mem_map.1 hx
  cases b <;> decide

/-- Bit `i` of a raw operand read as a vector. -/
theorem getLsbD_ofRaw (n : Nat) (raw : Raw) (i : Nat) :
    (ofRaw n raw).getLsbD i = (decide (i < n) && (raw.map (· == 1)).getD i false) :=
  getLsbD_ofBools n _ i

@[simp] theorem getLsbD_complementBit {n : Nat} (v : BitVec n) (i j : Nat) :
    (complementBit v i).getLsbD j =
      (decide (j < n) && if j = i then !v.getLsbD j else v.getLsbD j) := by
  rw [complementBit, getLsbD_ofBools]
  by_cases h : j < n <;> simp [h]

@[simp] theorem getLsbD_unit7 (p i : Nat) :
    (unit7 p).getLsbD i = (decide (i < 7) && i + 1 == p) := by
  rw [unit7, getLsbD_ofBools]
  by_cases h : i < 7 <;> simp [h]

end Sys2Proof
end

