-- ==== Sys2Proof/Laws/Operands.lean ====
section
/-! SUPPORT. What checking an operand can do. -/

namespace Sys2Proof.Machine

/-- A well-formed operand passes the check. -/
@[simp] theorem validate_rawOf {n : Nat} (v : BitVec n) : validate n (rawOf v) = .ok v := by
  simp [validate, rawOf_isBit]

/-- A well-formed raw operand is some vector written raw, so a fact about every `rawOf v` is a fact about
every well-formed operand. -/
theorem exists_rawOf_of_isVector {n : Nat} {raw : Raw} (h : raw.isVector n = true) :
    ∃ v : BitVec n, raw = rawOf v := by
  refine ⟨ofRaw n raw, ?_⟩
  simp only [Raw.isVector, Bool.and_eq_true, beq_iff_eq, List.all_eq_true] at h
  apply List.ext_getElem
  · simp [h.1]
  · intro i h1 h2
    have hb : raw[i] = 0 ∨ raw[i] = 1 := by
      simpa [Raw.isBit] using h.2 raw[i] (List.getElem_mem h1)
    have hv : (ofRaw n raw).getLsbD i = (raw[i] == 1) := by
      rw [getLsbD_ofRaw]
      simp [h1, ← h.1]
    simp only [rawOf, toBools, List.getElem_map, List.getElem_range, hv]
    rcases hb with hb | hb <;> rw [hb] <;> rfl

/-- A malformed raw operand fails the check. -/
theorem validate_of_not_isVector {n : Nat} {raw : Raw} (h : raw.isVector n = false) :
    ∃ e, validate n raw = .error e := by
  unfold validate
  split
  · exact ⟨_, rfl⟩
  · rename_i hl
    split
    · exact ⟨_, rfl⟩
    · rename_i hb
      have hv : raw.isVector n = true := by
        simp only [Raw.isVector, Bool.and_eq_true, beq_iff_eq, List.all_eq_true]
        refine ⟨not_not.1 hl, fun x hx => ?_⟩
        have := List.any_eq_false.1 (Bool.eq_false_iff.2 hb) x hx
        simp only [bne_iff_ne, Bool.and_eq_true, not_and_or, not_not, ne_eq] at this
        simpa [Raw.isBit] using this
      rw [h] at hv
      cases hv

/-- A well-formed vector operand is handed on as itself. -/
@[simp] theorem withVector_rawOf {n : Nat} (v : BitVec n) (s : State) (k : BitVec n → Answer) :
    withVector n (rawOf v) s k = k v := by
  simp [withVector]

/-- Everything a vector operand can do: end the invocation with its error class and nothing else, or
pass and go on. -/
theorem withVector_cases (n : Nat) (raw : Raw) (s : State) (k : BitVec n → Answer) :
    (∃ e, validate n raw = .error e ∧ withVector n raw s k = .next (s.raiseError e)) ∨
    (∃ v, validate n raw = .ok v ∧ withVector n raw s k = k v) := by
  unfold withVector
  cases h : validate n raw with
  | error e => exact .inl ⟨e, rfl, rfl⟩
  | ok v => exact .inr ⟨v, rfl, rfl⟩

/-- Two states in which an operand is checked agree on whether and how it passes. -/
theorem withVector_error {n : Nat} {raw : Raw} {e : ErrorClass} (h : validate n raw = .error e)
    (s : State) (k : BitVec n → Answer) : withVector n raw s k = .next (s.raiseError e) := by
  simp [withVector, h]

theorem withVector_ok {n : Nat} {raw : Raw} {v : BitVec n} (h : validate n raw = .ok v)
    (s : State) (k : BitVec n → Answer) : withVector n raw s k = k v := by
  simp [withVector, h]

/-- An error position written as an integer is read back as itself. -/
@[simp] theorem positionOf_val (p : ErrorPosition) : positionOf (p.val : Int) = some p := by
  simp [positionOf, p.isLt]

@[simp] theorem withPosition_val (p : ErrorPosition) (k : ErrorPosition → Answer) :
    withPosition (p.val : Int) k = k p := by
  simp [withPosition]

/-- Everything a position operand can do: pass, or be refused. -/
theorem withPosition_cases (n : Int) (k : ErrorPosition → Answer) :
    (∃ p : ErrorPosition, n = p.val ∧ withPosition n k = k p) ∨
    (positionOf n = none ∧ withPosition n k = .refused (.positionOutOfRange n)) := by
  unfold withPosition
  cases h : positionOf n with
  | none => exact .inr ⟨rfl, rfl⟩
  | some p =>
    refine .inl ⟨p, ?_, rfl⟩
    unfold positionOf at h
    split at h
    · split at h
      · cases h; simp; omega
      · cases h
    · cases h

end Sys2Proof.Machine
end

