-- ==== Sys2Proof/Laws/State.lean ====
section
/-! SUPPORT. One lemma per field per update of the state, and what each named operation leaves. -/

namespace Sys2Proof.Machine

section withReply
variable (s : State) (r : Reply)
@[simp] theorem State.withReply_inputWord : (s.withReply r).inputWord = s.inputWord := rfl
@[simp] theorem State.withReply_errorMask : (s.withReply r).errorMask = s.errorMask := rfl
@[simp] theorem State.withReply_evenParity : (s.withReply r).evenParity = s.evenParity := rfl
@[simp] theorem State.withReply_pub : (s.withReply r).pub = s.pub := rfl
@[simp] theorem State.withReply_script : (s.withReply r).script = s.script := rfl
@[simp] theorem State.withReply_reply : (s.withReply r).reply = r := rfl
end withReply

@[simp] theorem State.giveResult_eq (s : State) (r : Result) :
    s.giveResult r = s.withReply (.returned r) := rfl
@[simp] theorem State.raiseError_eq (s : State) (e : ErrorClass) :
    s.raiseError e = s.withReply (.raised e) := rfl

section publish
variable (s : State) (r : Run)
@[simp] theorem State.publish_inputWord : (s.publish r).inputWord = s.inputWord := rfl
@[simp] theorem State.publish_errorMask : (s.publish r).errorMask = s.errorMask := rfl
@[simp] theorem State.publish_evenParity : (s.publish r).evenParity = s.evenParity := rfl
@[simp] theorem State.publish_pub : (s.publish r).pub = r.published := rfl
@[simp] theorem State.publish_script : (s.publish r).script = s.script := rfl
@[simp] theorem State.publish_reply : (s.publish r).reply = s.reply := rfl
end publish

section withScript
variable (s : State) (ms : List HostMove)
@[simp] theorem State.withScript_inputWord : (s.withScript ms).inputWord = s.inputWord := rfl
@[simp] theorem State.withScript_errorMask : (s.withScript ms).errorMask = s.errorMask := rfl
@[simp] theorem State.withScript_evenParity : (s.withScript ms).evenParity = s.evenParity := rfl
@[simp] theorem State.withScript_pub : (s.withScript ms).pub = s.pub := rfl
@[simp] theorem State.withScript_script : (s.withScript ms).script = ms := rfl
@[simp] theorem State.withScript_reply : (s.withScript ms).reply = s.reply := rfl
end withScript

section writeInput
variable (s : State) (w : InputWrite)
@[simp] theorem State.writeInput_pub : (s.writeInput w).pub = s.pub := by cases w <;> rfl
@[simp] theorem State.writeInput_script : (s.writeInput w).script = s.script := by cases w <;> rfl
@[simp] theorem State.writeInput_reply : (s.writeInput w).reply = .nothing := by cases w <;> rfl
end writeInput

@[simp] theorem State.getInputWord_eq (s : State) : s.getInputWord = s.inputWord := rfl
@[simp] theorem State.getErrorMask_eq (s : State) : s.getErrorMask = s.errorMask := rfl
@[simp] theorem State.getParityConvention_eq (s : State) :
    s.getParityConvention = s.evenParity := rfl

section resetBlock
variable (s : State)
@[simp] theorem resetBlock_inputWord : (resetBlock s).inputWord = s.inputWord := rfl
@[simp] theorem resetBlock_errorMask : (resetBlock s).errorMask = s.errorMask := rfl
@[simp] theorem resetBlock_evenParity : (resetBlock s).evenParity = s.evenParity := rfl
@[simp] theorem resetBlock_pub : (resetBlock s).pub = .absent := rfl
@[simp] theorem resetBlock_script : (resetBlock s).script = s.script := rfl
@[simp] theorem resetBlock_reply : (resetBlock s).reply = .nothing := rfl
end resetBlock

section published
variable (r : Run)
@[simp] theorem Run.published_data : r.published.data = some r.data := rfl
@[simp] theorem Run.published_parity : r.published.parity = some r.parity := rfl
@[simp] theorem Run.published_codeword : r.published.codeword = some r.codeword := rfl
@[simp] theorem Run.published_receivedCodeword :
    r.published.receivedCodeword = some r.received := rfl
@[simp] theorem Run.published_syndrome : r.published.syndrome = some r.syndrome := rfl
@[simp] theorem Run.published_correctedData :
    r.published.correctedData = some r.correctedData := rfl
end published

/-- What a host read by name can do: answer the entry and change the reply alone, or be refused. -/
theorem readEntry_cases (k : PubKey) (s : State) :
    (∃ v, s.pub.read k = some v ∧ readEntry k s = .next (s.withReply (.entry v))) ∨
    (s.pub.read k = none ∧ readEntry k s = .refused (.absentEntry k)) := by
  unfold readEntry
  cases h : s.pub.read k with
  | none => exact .inr ⟨rfl, rfl⟩
  | some v => exact .inl ⟨v, rfl, rfl⟩

end Sys2Proof.Machine
end

