-- ==== Sys2Proof/Laws/Exec.lean ====
section
/-! SUPPORT. One lemma per meaning on well-formed operands, and one for each move of the host. -/

namespace Sys2Proof.Machine

theorem execParity_rawOf (d : DataWord) (ep : Bool) (s : State) :
    execParity (rawOf d) ep s = .next (s.giveResult (.parity (computeParity d ep))) := by
  simp [execParity]

theorem execAssemble_rawOf (d : DataWord) (p : CheckWord) (s : State) :
    execAssemble (rawOf d) (rawOf p) s = .next (s.giveResult (.codeword (assemble d p))) := by
  simp [execAssemble]

theorem execDisassemble_rawOf (c : Codeword) (s : State) :
    execDisassemble (rawOf c) s = .next (s.giveResult (.split (dataPart c) (parityPart c))) := by
  simp [execDisassemble]

theorem execApplyError_rawOf (c : Codeword) (m : ErrorMask) (s : State) :
    execApplyError (rawOf c) (rawOf m) s = .next (s.giveResult (.received (applyError c m))) := by
  simp [execApplyError]

theorem execSyndrome_rawOf (r : Codeword) (ep : Bool) (s : State) :
    execSyndrome (rawOf r) ep s = .next (s.giveResult (.syndrome (computeSyndrome r ep))) := by
  simp [execSyndrome]

theorem execLocate_rawOf (v : Syndrome) (s : State) :
    execLocate (rawOf v) s = .next (s.giveResult (.position (locateError v))) := by
  simp [execLocate]

theorem execCorrect_rawOf (r : Codeword) (p : ErrorPosition) (s : State) :
    execCorrect (rawOf r) p.val s = .next (s.giveResult (.corrected (correct r p))) := by
  simp [execCorrect]

theorem execEncode_rawOf (d : DataWord) (ep : Bool) (s : State) :
    execEncode (rawOf d) ep s = .next (s.giveResult (.codeword (encodeData d ep))) := by
  simp [execEncode]

theorem execDecode_rawOf (r : Codeword) (ep : Bool) (s : State) :
    execDecode (rawOf r) ep s =
      .next (s.giveResult (.decoded (decodeReceived r ep) (decodePosition r ep))) := by
  simp [execDecode]

/-- A run of SIMULATE on well-formed inputs publishes its values and hands back success. -/
theorem execSimulate_rawOf (s : State) (d : DataWord) (m : ErrorMask)
    (hd : s.inputWord = rawOf d) (hm : s.errorMask = rawOf m) :
    execSimulate s = .next ((s.publish (simulateRun d m s.evenParity)).giveResult .done) := by
  simp [execSimulate, hd, hm]

/-- Everything SIMULATE can do: raise the error of the first malformed input and change the reply
alone, or publish one run and hand back success. -/
theorem execSimulate_cases (s : State) :
    (∃ e, execSimulate s = .next (s.raiseError e)) ∨
    (∃ d m, validate 4 s.inputWord = .ok d ∧ validate 7 s.errorMask = .ok m ∧
      execSimulate s = .next ((s.publish (simulateRun d m s.evenParity)).giveResult .done)) := by
  unfold execSimulate
  obtain ⟨e, -, h⟩ | ⟨d, hd, h⟩ := withVector_cases 4 s.getInputWord s
    (fun d => withVector 7 s.getErrorMask s fun m =>
      .next ((s.publish (simulateRun d m s.getParityConvention)).giveResult .done))
  · exact .inl ⟨e, h⟩
  · obtain ⟨e, -, h'⟩ | ⟨m, hm, h'⟩ := withVector_cases 7 s.getErrorMask s
      (fun m => .next ((s.publish (simulateRun d m s.getParityConvention)).giveResult .done))
    · exact .inl ⟨e, h.trans h'⟩
    · exact .inr ⟨d, m, hd, hm, h.trans h'⟩

/-- With a move pending, a step makes it. -/
theorem step_cons {s : State} {m : HostMove} {rest : List HostMove} (h : s.script = m :: rest) :
    step s = runMove m (s.withScript rest) := by
  simp [step, runNext, h]

/-- A command word with a wire-level form runs the operation it decodes to. -/
theorem runCommand_ok {cmd : Cmd} {i : Instr} (h : decodeCmd cmd = .ok i) {s : State}
    (hw : hasWireForm i s = true) : runCommand cmd s = exec i s := by
  simp [runCommand, h, hw]

/-- Every operation but SIMULATE has a wire-level form in every state. -/
theorem hasWireForm_of_ne {i : Instr} (h : i ≠ .simulate) (s : State) : hasWireForm i s = true := by
  cases i <;> first | rfl | exact absurd rfl h

@[simp] theorem hasWireForm_simulate (s : State) :
    hasWireForm .simulate s = s.inputsWellFormed := rfl

/-- Everything a command word can do: run the operation it decodes to; be refused as SIMULATE on a
malformed input; or be refused as reserved. -/
theorem runCommand_cases (cmd : Cmd) (s : State) :
    (∃ i, decodeCmd cmd = .ok i ∧ hasWireForm i s = true ∧ runCommand cmd s = exec i s) ∨
    (decodeCmd cmd = .ok .simulate ∧ s.inputsWellFormed = false ∧
      runCommand cmd s = .refused .malformedInputOnWire) ∨
    (∃ e, decodeCmd cmd = .error e ∧ runCommand cmd s = .refused (.reservedCommand cmd)) := by
  cases h : decodeCmd cmd with
  | error e => exact .inr (.inr ⟨e, rfl, by simp [runCommand, h]⟩)
  | ok i =>
    cases hw : hasWireForm i s with
    | true => exact .inl ⟨i, rfl, hw, runCommand_ok h hw⟩
    | false =>
      obtain rfl : i = .simulate := by
        by_contra hi
        rw [hasWireForm_of_ne hi] at hw
        cases hw
      exact .inr (.inl ⟨rfl, hw, by simp [runCommand, h, hw]⟩)

/-- Well-formed inputs are two vectors written raw. -/
theorem inputsWellFormed_cases {s : State} (h : s.inputsWellFormed = true) :
    ∃ (d : DataWord) (m : ErrorMask), s.inputWord = rawOf d ∧ s.errorMask = rawOf m := by
  obtain ⟨hd, hm⟩ := Bool.and_eq_true_iff.1 h
  obtain ⟨d, hd⟩ := exists_rawOf_of_isVector hd
  obtain ⟨m, hm⟩ := exists_rawOf_of_isVector hm
  exact ⟨d, m, hd, hm⟩

theorem runCommand_error {cmd : Cmd} {e : DecodeError} (h : decodeCmd cmd = .error e) (s : State) :
    runCommand cmd s = .refused (.reservedCommand cmd) := by
  simp [runCommand, h]

end Sys2Proof.Machine
end

