-- ==== Sys2Proof/Laws/PerInstr.lean ====
section
/-! SUPPORT. For every instruction: it has a command word exactly when it is well formed (R70). -/

namespace Sys2Proof.Laws.WireForm

/-- The invocation has a command word exactly when its operands are well formed. -/
def Statement (i : Instr) : Prop := (encode i).isSome = i.wellFormed

/-- The encoder answers exactly under the check. -/
theorem of_check (i : Instr) : Statement i := by
  unfold Statement Sys2Proof.encode
  split <;> simp_all

theorem parity (data : Raw) (ep : Bool) : Statement (.parity data ep) := of_check _
theorem assemble (data parity : Raw) : Statement (.assemble data parity) := of_check _
theorem disassemble (codeword : Raw) : Statement (.disassemble codeword) := of_check _
theorem applyError (codeword mask : Raw) : Statement (.applyError codeword mask) := of_check _
theorem syndrome (received : Raw) (ep : Bool) : Statement (.syndrome received ep) := of_check _
theorem locate (syndrome : Raw) : Statement (.locate syndrome) := of_check _
theorem correct (received : Raw) (position : Int) : Statement (.correct received position) :=
  of_check _
theorem encode (data : Raw) (ep : Bool) : Statement (.encode data ep) := of_check _
theorem decode (received : Raw) (ep : Bool) : Statement (.decode received ep) := of_check _
theorem simulate : Statement .simulate := of_check _

end Sys2Proof.Laws.WireForm
end

