-- ==== Sys2Proof/Tests/Slice0.lean ====
section
/-! SUPPORT. Tests. Expected values come from the spec's own tables and examples (`30_encoding.md` R92,
`95_test_vectors.md` S1 to S8, T1 to T8, P1 to P5, `96_test_tables.md`), none from the model. -/

namespace Sys2Proof.Tests

open Sys2Proof Sys2Proof.Machine Sys2Proof.Safety

/-- The reply of the next state, if there is one. -/
def replyOf : Answer → Option Reply
  | .next t => some t.reply
  | .fault _ => none
  | .refused _ => none

/-- The published store of the next state, if there is one. -/
def pubOf : Answer → Option Published
  | .next t => some t.pub
  | .fault _ => none
  | .refused _ => none

/-- The reason of a refusal, if the answer is one. -/
def refusalOf : Answer → Option Refusal
  | .next _ => none
  | .fault _ => none
  | .refused r => some r

/-- The inputs of P1, the store absent, and these moves pending. -/
def demo (moves : List HostMove) : State :=
  (State.launch [1, 0, 1, 0] [0, 0, 0, 0, 1, 0, 0] true).withScript moves

/-- The end state of P1 in the store. -/
def p1Store : Published :=
  ⟨some 0x5, some 0x5, some 0x2D, some 0x3D, some 0x5, some 0x5⟩

/-- `demo` after P1. -/
def demoRun (moves : List HostMove) : State := { demo moves with pub := p1Store }

/-! ### WellFormed: an ill-formed term for each check -/

theorem test_wf_parity : Instr.wellFormed (.parity [1, 0, 1] true) = false := by decide
theorem test_wf_assemble_data : Instr.wellFormed (.assemble [1, 0, 2, 0] [1, 0, 1]) = false := by decide
theorem test_wf_assemble_parity : Instr.wellFormed (.assemble [1, 0, 1, 0] [1, 0]) = false := by decide
theorem test_wf_disassemble : Instr.wellFormed (.disassemble [1, 0, 1, 1, 0, 1, 7]) = false := by decide
theorem test_wf_applyError_codeword :
    Instr.wellFormed (.applyError [1, 0, 1, 1, 0] [0, 0, 0, 0, 1, 0, 0]) = false := by decide
theorem test_wf_applyError_mask :
    Instr.wellFormed (.applyError [1, 0, 1, 1, 0, 1, 0] [0, 0, 0, 0, 2, 0, 0]) = false := by decide
theorem test_wf_syndrome : Instr.wellFormed (.syndrome [1, 0, 1, 1, 1, 1, 0, 0] true) = false := by decide
theorem test_wf_locate : Instr.wellFormed (.locate [1, 0, 5]) = false := by decide
theorem test_wf_correct_word : Instr.wellFormed (.correct [1, 0, 1, 1, 1, 1] 5) = false := by decide
theorem test_wf_correct_position :
    Instr.wellFormed (.correct [1, 0, 1, 1, 1, 1, 0] 8) = false ∧
    Instr.wellFormed (.correct [1, 0, 1, 1, 1, 1, 0] (-1)) = false := by decide
theorem test_wf_encode : Instr.wellFormed (.encode [1, 0, -1, 0] true) = false := by decide
theorem test_wf_decode : Instr.wellFormed (.decode [1, 0, 1, 1, 1, 9, 0] true) = false := by decide
theorem test_wf_accepts : Instr.wellFormed (.correct [1, 0, 1, 1, 1, 1, 0] 7) = true := by decide

/-! ### Decoding: words written out bit by bit from the patterns of R81 -/

/-- `0001e00000000000dddd` with e = 0, d = `[0,1,1,1]` (P2). -/
theorem test_decode_parity :
    (decodeCmd 0b00010000000000001110).toOption = some (.parity [0, 1, 1, 1] false) := by decide
/-- `001000000ppp0000dddd` with p = `[1,1,0]`, d = `[0,1,1,1]` (P2). -/
theorem test_decode_assemble :
    (decodeCmd 0b00100000001100001110).toOption = some (.assemble [0, 1, 1, 1] [1, 1, 0]) := by decide
/-- `0011000000000ccccccc` with c = `[1,1,0,0,1,1,1]` (P2). -/
theorem test_decode_disassemble :
    (decodeCmd 0b00110000000001110011).toOption = some (.disassemble [1, 1, 0, 0, 1, 1, 1]) := by decide
/-- `01000mmmmmmm0ccccccc` with m = `[0,0,1,0,0,0,0]`, c = `[1,1,0,0,1,1,1]` (P2). -/
theorem test_decode_applyError :
    (decodeCmd 0b01000000010001110011).toOption =
      some (.applyError [1, 1, 0, 0, 1, 1, 1] [0, 0, 1, 0, 0, 0, 0]) := by decide
/-- `0101e00000000rrrrrrr` with e = 0, r = `[1,1,1,0,1,1,1]` (P2). -/
theorem test_decode_syndrome :
    (decodeCmd 0b01010000000001110111).toOption = some (.syndrome [1, 1, 1, 0, 1, 1, 1] false) := by
  decide
/-- `01100000000000000sss` with s = `[1,1,0]` (P2). -/
theorem test_decode_locate :
    (decodeCmd 0b01100000000000000011).toOption = some (.locate [1, 1, 0]) := by decide
/-- `011100000nnn0rrrrrrr` with n = 3, r = `[1,1,1,0,1,1,1]` (P2). -/
theorem test_decode_correct :
    (decodeCmd 0b01110000001101110111).toOption = some (.correct [1, 1, 1, 0, 1, 1, 1] 3) := by decide
/-- `1000e00000000000dddd` with e = 0, d = `[1,0,1,0]` (T8). -/
theorem test_decode_encode :
    (decodeCmd 0b10000000000000000101).toOption = some (.encode [1, 0, 1, 0] false) := by decide
/-- `1001e00000000rrrrrrr` with e = 0, r = `[1,1,1,0,1,1,1]` (P2). -/
theorem test_decode_decode :
    (decodeCmd 0b10010000000001110111).toOption = some (.decode [1, 1, 1, 0, 1, 1, 1] false) := by decide
/-- `10100000000000000000`. -/
theorem test_decode_simulate :
    (decodeCmd 0b10100000000000000000).toOption = some .simulate := by decide
/-- Reserved words of T8. -/
theorem test_decode_reserved :
    (decodeCmd 0x1801F).toOption = none ∧ (decodeCmd 0x28700).toOption = none ∧
    (decodeCmd 0x00000).toOption = none ∧ (decodeCmd 0x18085).toOption = none := by decide
/-- The encoder on T8's `APPLY_ERROR` and `CORRECT`. -/
theorem test_encode :
    encode (.applyError [1, 0, 1, 1, 0, 1, 0] [1, 1, 1, 1, 1, 1, 1]) = some 0x47F2D ∧
    encode (.correct [1, 0, 1, 1, 1, 1, 0] 7) = some 0x7073D ∧
    encode (.parity [1, 0, 1] true) = none := by decide
/-- A table word read as `decodeTableWord` numbers it; a bit above the 20 is no command word. -/
theorem test_decode_table_word :
    decodeTableWord 24 0x1800F = some (.parity [1, 1, 1, 1] true) ∧
    decodeTableWord 24 0x11800F = none := by decide

/-! ### The operations, on one state -/

/-- T1. -/
theorem test_parity :
    replyOf (exec (.parity [0, 0, 0, 1] true) .reset) = some (.returned (.parity 0b111)) ∧
    replyOf (exec (.parity [1, 0, 0, 0] true) .reset) = some (.returned (.parity 0b011)) := by decide
/-- T1 and T7. -/
theorem test_parity_odd_and_errors :
    replyOf (exec (.parity [1, 1, 1, 1] false) .reset) = some (.returned (.parity 0)) ∧
    replyOf (exec (.parity [1, 0, 2] true) .reset) = some (.raised .invalidLength) ∧
    replyOf (exec (.parity [1, 0, -1, 0] true) .reset) = some (.raised .invalidBitValue) := by decide
/-- S7 and T2. -/
theorem test_assemble :
    replyOf (exec (.assemble [0, 1, 0, 0] [0, 0, 1]) .reset) = some (.returned (.codeword 0x18)) ∧
    replyOf (exec (.assemble [1, 1, 1, 1] [0, 0, 0]) .reset) = some (.returned (.codeword 0x74)) := by
  decide
/-- T7: `data` is checked before `parity`. -/
theorem test_assemble_check_order :
    replyOf (exec (.assemble [1, 0, 2, 0] [1, 0, 1, 1, 1]) .reset) = some (.raised .invalidBitValue) ∧
    replyOf (exec (.assemble [1, 0, 1] [1, 0, 3]) .reset) = some (.raised .invalidLength) := by decide
/-- T2. -/
theorem test_disassemble :
    replyOf (exec (.disassemble [0, 0, 1, 0, 1, 1, 1]) .reset) = some (.returned (.split 0xF 0)) ∧
    replyOf (exec (.disassemble [0, 0, 0, 1, 0, 0, 0]) .reset) = some (.returned (.split 0 0b100)) := by
  decide
/-- T3: a 1 under a mask bit becomes 0. -/
theorem test_applyError :
    replyOf (exec (.applyError [1, 0, 1, 1, 0, 1, 0] [1, 0, 0, 0, 0, 0, 0]) .reset) =
      some (.returned (.received 0x2C)) := by decide
/-- T7. -/
theorem test_applyError_errors :
    replyOf (exec (.applyError [1, 0, 1, 1, 0] [0, 0, 0, 0, 1]) .reset) = some (.raised .invalidLength) ∧
    replyOf (exec (.applyError [1, 0, 1, 1, 0, 1, 0] [0, 0, 0, 0, 2, 0, 0]) .reset) =
      some (.raised .invalidBitValue) := by decide
/-- T8: one word under both conventions. -/
theorem test_syndrome :
    replyOf (exec (.syndrome [0, 1, 1, 0, 0, 1, 0] false) .reset) = some (.returned (.syndrome 0)) ∧
    replyOf (exec (.syndrome [0, 1, 1, 0, 0, 1, 0] true) .reset) = some (.returned (.syndrome 7)) := by
  decide
/-- S8: `[1,0,0]` is 1, not 4. -/
theorem test_locate :
    replyOf (exec (.locate [1, 0, 0]) .reset) = some (.returned (.position 1)) ∧
    replyOf (exec (.locate [0, 1, 1]) .reset) = some (.returned (.position 6)) := by decide
/-- T6. -/
theorem test_correct :
    replyOf (exec (.correct [1, 0, 1, 1, 1, 1, 0] 7) .reset) = some (.returned (.corrected 0x7D)) ∧
    replyOf (exec (.correct [1, 0, 1, 1, 1, 1, 0] 0) .reset) = some (.returned (.corrected 0x3D)) := by
  decide
/-- T7: position 8 is refused; a malformed word is an error first. -/
theorem test_correct_stops :
    refusalOf (exec (.correct [1, 0, 1, 1, 1, 1, 0] 8) .reset) = some (.positionOutOfRange 8) ∧
    replyOf (exec (.correct [1, 0, 1, 1, 1, 1] 5) .reset) = some (.raised .invalidLength) := by decide
/-- The ENCODE table under R150. -/
theorem test_encode_operation :
    replyOf (exec (.encode [1, 1, 0, 1] true) .reset) = some (.returned (.codeword 0x55)) ∧
    replyOf (exec (.encode [1, 1, 0, 1] false) .reset) = some (.returned (.codeword 0x5E)) := by decide
/-- T5, and T8's convention mismatch. -/
theorem test_decode_operation :
    replyOf (exec (.decode [0, 0, 0, 0, 1, 0, 1] true) .reset) = some (.returned (.decoded 0x52 2)) ∧
    replyOf (exec (.decode [1, 0, 1, 1, 0, 1, 0] false) .reset) = some (.returned (.decoded 0x6D 7)) := by
  decide
/-- P1. -/
theorem test_simulate :
    pubOf (exec .simulate (demo [])) = some p1Store ∧
    replyOf (exec .simulate (demo [])) = some (.returned .done) := by decide
/-- P4: a failed run leaves the store alone. -/
theorem test_simulate_failure :
    pubOf (exec .simulate { demoRun [] with inputWord := [1, 0, 2, 0] }) = some p1Store ∧
    replyOf (exec .simulate { demoRun [] with inputWord := [1, 0, 2, 0] }) =
      some (.raised .invalidBitValue) := by decide

/-! ### Steps and the host's moves -/

/-- P1, by its command word. -/
theorem test_step_command : pubOf (step (demo [.command 0xA0000])) = some p1Store := by decide
theorem test_step_reserved :
    refusalOf (step (demo [.command 0xB0000])) = some (.reservedCommand 0xB0000) := by decide
/-- P4: a malformed input has no wire encoding, so its error arises at the call level only (R70). -/
theorem test_step_malformed_input :
    refusalOf (step ({ demoRun [.command 0xA0000] with inputWord := [1, 0, 1] })) =
      some .malformedInputOnWire ∧
    replyOf (step ({ demoRun [.call .simulate] with inputWord := [1, 0, 1] })) =
      some (.raised .invalidLength) := by decide
theorem test_step_fetch_word :
    replyOf (step ((State.reset).withFetchWord 24 0x60007)) = some (.returned (.position 7)) := by decide
theorem test_step_read :
    replyOf (step (demoRun [.readIndex 3])) = some (.entry (.code 0x3D)) ∧
    refusalOf (step (demo [.readName .data])) = some (.absentEntry .data) ∧
    refusalOf (step (demoRun [.readIndex 6])) = some (.noSuchKey 6) := by decide
theorem test_step_reset : pubOf (step (demoRun [.reset])) = some .absent := by decide
theorem test_key_indices : PubKey.all.map PubKey.index = [0, 1, 2, 3, 4, 5] := by decide
theorem test_input_indices :
    [InputWrite.inputWord [], .errorMask [], .evenParity true].map InputWrite.index = [0, 1, 2] := by
  decide
theorem test_status_ordinals :
    (Reply.returned .done).status = some 0 ∧ (Reply.raised .invalidLength).status = some 1 ∧
    (Reply.raised .invalidBitValue).status = some 2 := by decide
theorem test_entry_field :
    (Reply.entry (.check 0b101)).entryField = some 0x05 ∧
    (Reply.returned (.split 0x5 0x5)).fields = some (0x05, 0x05) := by decide
/-- The on-screen word 0101 is the operand `[1,0,1,0]` (R195). -/
theorem test_rev : rev (ofBools 4 [false, true, false, true]) = ofBools 4 [true, false, true, false] := by
  decide

/-! ### Witnesses: a concrete state and operands that meet each statement's hypotheses -/

theorem test_witness_DecodeOfEncodeIsIdentity :
    Instr.wellFormed (.correct [1, 1, 1, 1, 1, 1, 1] 7) = true ∧ Instr.wellFormed .simulate = true := by
  decide
theorem test_witness_EncodeOfDecodeIsIdentity :
    decodeCmd 0x7073D = .ok (.correct [1, 0, 1, 1, 1, 1, 0] 7) := rfl
theorem test_witness_DecodesExactlyTheTableRows : Op.decode.matches 0x9802D = true := by decide
/-- Clause by clause; SIMULATE with well-formed inputs in the first. -/
theorem test_witness_StepRunsTheIssuedInvocation :
    ((demo [.command 0xA0000, .reset]).script = .command 0xA0000 :: [.reset] ∧
      decodeCmd 0xA0000 = .ok .simulate ∧ (demo []).inputWord.isVector 4 = true ∧
      (demo []).errorMask.isVector 7 = true) ∧
    ({ demo [.command 0xA0000] with inputWord := [] }.script = .command 0xA0000 :: [] ∧
      (Raw.isVector 4 { demo [] with inputWord := [] }.inputWord &&
        Raw.isVector 7 (demo []).errorMask) = false) ∧
    (demo [.call (.locate [1]), .reset]).script = .call (.locate [1]) :: [.reset] :=
  ⟨⟨rfl, rfl, by decide, by decide⟩, ⟨rfl, by decide⟩, rfl⟩
theorem test_witness_CommandWordNeverRaisesAnError :
    ∃ t, runMove (.command 0xA0000) (demo []) = .next t := ⟨_, rfl⟩
theorem test_witness_StepRefusesAReservedCommand :
    (demo [.command 0x60008]).script = .command 0x60008 :: [] ∧
    decodeCmd 0x60008 = .error .mustBeZeroBitSet ∧ decodeCmd 0xB0000 = .error .reservedOp :=
  ⟨rfl, rfl, rfl⟩
theorem test_witness_StepRunsTheFetchWord :
    decodeTableWord 24 0xA0000 = some .simulate ∧ (demo []).inputWord.isVector 4 = true ∧
    (demo []).errorMask.isVector 7 = true := by decide
theorem test_witness_StepMakesHostWritesOnly :
    (demo [.write (.inputWord [])]).script = .write (.inputWord []) :: [] ∧
    (demo [.write (.errorMask [2])]).script = .write (.errorMask [2]) :: [] ∧
    (demo [.write (.evenParity false)]).script = .write (.evenParity false) :: [] ∧
    (demo []).script = [] := ⟨rfl, rfl, rfl, rfl⟩
/-- A present entry by index and by name at both ends of the key range, an absent one, and 6, 7. -/
theorem test_witness_StepReadsAPublishedEntry :
    (demoRun [.readIndex 0]).script = .readIndex 0 :: [] ∧
    (demoRun [.readIndex 0]).pub.data.map .data = some (EntryValue.data 0x5) ∧
    (demoRun [.readName .correctedData]).script = .readName .correctedData :: [] ∧
    (demoRun [.readName .correctedData]).pub.correctedData.map .data = some (EntryValue.data 0x5) ∧
    (demo [.readIndex 5]).pub.correctedData.map EntryValue.data = none ∧
    (demo [.readIndex 6]).script = .readIndex 6 :: [] ∧
    (demo [.readIndex 7]).script = .readIndex 7 :: [] := by decide
/-- The malformed operands of the nine result statements. -/
theorem test_witness_malformed_operands :
    Raw.isVector 4 [1, 0, 2, 0] = false ∧ Raw.isVector 4 [] = false ∧
    Raw.isVector 7 [1, 0, 1, 1, 0, 1] = false ∧ Raw.isVector 3 [1, 0, 1, 0] = false ∧
    (Raw.isVector 4 [1, 0, 1, 0] && Raw.isVector 3 [1, 0]) = false ∧
    (Raw.isVector 7 [0, 0, 0, 0, 0, 0, 2] && Raw.isVector 7 [0, 0, 0, 0, 0, 0, 0]) = false := by decide
theorem test_witness_SingleBitMaskFlipsOnePosition : (1 : ErrorPosition).val ≠ 0 ∧ (7 : ErrorPosition).val ≠ 0 := by
  decide
theorem test_witness_SyndromeIsTheXorOfPositions : ValidCodeword false 0x26 := ⟨0x5, by decide⟩
theorem test_witness_CorrectFlipsTheBitItIsGiven :
    (0 : Int) ≤ 0 ∧ (0 : Int) ≤ 7 ∧ (1 : Int) ≠ 0 ∧ (7 : Int) ≠ 0 ∧ (7 : Int) ≤ 7 := by decide
theorem test_witness_CorrectRefusesAPositionOutOfRange :
    ((-1 : Int) < 0) ∧ (7 : Int) < 8 ∧ Raw.isVector 7 [1, 0, 1, 1, 1, 1] = false := by decide
theorem test_witness_DoubleErrorFlipsAThirdPosition :
    (1 : ErrorPosition).val ≠ 0 ∧ (7 : ErrorPosition).val ≠ 0 ∧ (1 : ErrorPosition) ≠ 7 := by decide
theorem test_witness_MultipleErrorsDecodeToAWrongCodeword :
    2 ≤ ones (0x41 : ErrorMask) ∧ 2 ≤ ones (0x7F : ErrorMask) := by decide
theorem test_witness_ConventionMismatchShiftsThePosition :
    (1 : ErrorPosition).val ≠ 0 ∧ (7 : ErrorPosition).val ≠ 0 := by decide
/-- The inputs of SimulatePublishesItsRun, SimulateClosedForm, ConventionSymmetryOfARun,
SimulateIsTheCompositionOfOperations and SimulateRecoversDataIffAtMostOneFlip. -/
theorem test_witness_wellformed_inputs :
    (demo []).inputWord = rawOf (0x5 : DataWord) ∧ (demo []).errorMask = rawOf (0x10 : ErrorMask) := by
  decide
theorem test_witness_FailedSimulatePublishesNothing :
    (Raw.isVector 4 ({ demo [] with inputWord := [1, 0, 1] }).inputWord &&
      Raw.isVector 7 (demo []).errorMask) = false ∧
    (Raw.isVector 4 (demo []).inputWord &&
      Raw.isVector 7 ({ demo [] with errorMask := [0, 0, 0, 0, 2, 0, 0] }).errorMask) = false := by decide
theorem test_witness_SimulateDependsOnItsInputsAlone :
    SameInputs (demo []) (demoRun [.reset]) ∧ (demo []).pub ≠ (demoRun [.reset]).pub :=
  ⟨⟨rfl, rfl, rfl⟩, by decide⟩
theorem test_witness_WrongLengthRaisesInvalidLength :
    LegalPosition (.assemble [1, 0, 1, 0] [1]) ∧
    (∀ o ∈ checkedOperands .reset (.assemble [1, 0, 1, 0] [1]), OnlyBits o) ∧
    ∃ o ∈ checkedOperands .reset (.assemble [1, 0, 1, 0] [1]), ¬ RightLength o := by
  refine ⟨fun _ _ h => (by cases h), ?_, (3, [1]), by decide, by unfold RightLength; decide⟩
  unfold OnlyBits
  decide
theorem test_witness_OtherElementRaisesInvalidBitValue :
    LegalPosition (.locate [1, 0, 5]) ∧
    (∀ o ∈ checkedOperands .reset (.locate [1, 0, 5]), RightLength o) ∧
    ∃ o ∈ checkedOperands .reset (.locate [1, 0, 5]), ¬ OnlyBits o := by
  refine ⟨fun _ _ h => (by cases h), ?_, (3, [1, 0, 5]), by decide, by unfold OnlyBits; decide⟩
  unfold RightLength
  decide
theorem test_witness_FirstFailureIsTheOneReported :
    FirstError .invalidBitValue (checkedOperands .reset (.assemble [1, 0, 2, 0] [1, 0])) ∧
    FirstError .invalidLength (checkedOperands .reset (.assemble [1, 0, 1, 0] [2])) ∧
    ∀ e, ¬ FirstError e (checkedOperands .reset (.locate [1, 0, 1])) := by
  simp only [checkedOperands, FirstError, RightLength, OnlyBits]
  refine ⟨by decide, by decide, fun e => ?_⟩
  cases e <;> decide
theorem test_witness_AnErrorHasNoOtherEffect :
    ∃ t, exec (.locate [1, 0]) (demoRun []) = .next t ∧ t.reply = .raised .invalidLength :=
  ⟨_, rfl, rfl⟩
theorem test_witness_StatusOrdinals :
    (∃ t, exec (.locate [1, 0, 1]) .reset = .next t ∧ t.reply = .returned (.position 5)) ∧
    (∃ t, exec (.locate [1, 0]) .reset = .next t ∧ t.reply = .raised .invalidLength) ∧
    ∃ t, exec (.locate [1, 0, 5]) .reset = .next t ∧ t.reply = .raised .invalidBitValue :=
  ⟨⟨_, rfl, rfl⟩, ⟨_, rfl, rfl⟩, _, rfl, rfl⟩
theorem test_witness_ComponentOperationsTouchNoState :
    Instr.decode [1, 0, 1, 1, 1, 1, 0] true ≠ .simulate ∧
    ∃ t, exec (.decode [1, 0, 1, 1, 1, 1, 0] true) (demoRun []) = .next t := ⟨by decide, _, rfl⟩
theorem test_witness_NoOperationReadsTheStore : ∃ t, exec .simulate (demo []) = .next t := ⟨_, rfl⟩
theorem test_witness_ConventionChangesOnlyByTheHost :
    ∃ t, exec .simulate (demoRun []) = .next t := ⟨_, rfl⟩
theorem test_witness_OnlySimulateOrResetChangesTheStore :
    (∃ t, step (demo [.call .simulate]) = .next t ∧ t.pub ≠ (demo [.call .simulate]).pub) ∧
    (∃ t, step (demo [.command 0xA0000]) = .next t ∧ t.pub ≠ (demo [.command 0xA0000]).pub) ∧
    ∃ t, step (demoRun [.reset]) = .next t ∧ t.pub ≠ (demoRun [.reset]).pub :=
  ⟨⟨_, rfl, by decide⟩, ⟨_, rfl, by decide⟩, _, rfl, by decide⟩
theorem test_witness_OnlyHostWritesChangeAnInput :
    (∃ t, step (demo [.write (.inputWord [])]) = .next t ∧ t.inputWord ≠ (demo []).inputWord) ∧
    (∃ t, step (demo [.write (.errorMask [])]) = .next t ∧ t.errorMask ≠ (demo []).errorMask) ∧
    ∃ t, step (demo [.write (.evenParity false)]) = .next t ∧ t.evenParity ≠ (demo []).evenParity :=
  ⟨⟨_, rfl, by decide⟩, ⟨_, rfl, by decide⟩, _, rfl, by decide⟩
theorem test_witness_ReadsAndRunsAreIdempotent :
    (∃ t, runMove (.readName .syndrome) (demoRun []) = .next t) ∧
    ∃ t, runMove (.readIndex 4) (demoRun []) = .next t := ⟨⟨_, rfl⟩, _, rfl⟩
theorem test_witness_EveryInvocationAnswers :
    LegalPosition (.correct [1, 0] 7) ∧ LegalPosition .simulate := by
  refine ⟨?_, ?_⟩ <;> intro r n h <;> cases h
  decide
theorem test_witness_HarmlessMovesRunToTheEnd :
    Unstoppable (demo [.write (.inputWord [1, 1, 1, 1]), .call (.locate [3]), .command 0xA0000,
      .command 0x60005, .reset]) := by
  refine ⟨fun m hm => ?_, fun _ => ⟨by decide, fun w hw => ?_⟩⟩
  · simp only [demo, State.withScript, List.mem_cons, List.not_mem_nil, or_false] at hm
    rcases hm with rfl | rfl | rfl | rfl | rfl
    · exact .inr (.inr (.inl ⟨_, rfl⟩))
    · exact .inr (.inl ⟨_, rfl, fun _ _ h => by cases h⟩)
    · exact .inl ⟨_, _, rfl, rfl⟩
    · exact .inl ⟨_, _, rfl, rfl⟩
    · exact .inr (.inr (.inr rfl))
  · obtain rfl : w = .inputWord [1, 1, 1, 1] := by
      simpa [demo, State.withScript] using hw
    show Raw.isVector 4 [1, 1, 1, 1] = true
    decide
theorem test_witness_StepKeepsTheStoreCoherent :
    Invariant (demoRun [.call .simulate]) ∧ ∃ t, step (demoRun [.call .simulate]) = .next t :=
  ⟨.inr ⟨0x5, 0x10, true, by decide⟩, _, rfl⟩
theorem test_witness_ResetLeavesTheStoreAbsent :
    (demoRun [.reset, .call .simulate]).script = .reset :: [.call .simulate] := rfl
theorem test_witness_PresentEntriesStayPresent :
    (∃ t, step (demoRun [.call .simulate]) = .next t) ∧
    (demoRun [.call .simulate]).script.head? ≠ some .reset ∧
    ((demoRun [.call .simulate]).pub.read .parity).isSome = true := ⟨⟨_, rfl⟩, by decide, by decide⟩
theorem test_witness_ReversalIsItsOwnInverse : 0 < 4 ∧ 3 < 4 := by decide

end Sys2Proof.Tests
end

section
/-! PROOFS. Repeating a host read, a host write or SIMULATE adds nothing (R55). -/

namespace Sys2Proof.Machine

open Sys2Proof.Safety

/-- Of two replies the later one stands. -/
@[simp] theorem State.withReply_withReply (s : State) (r r' : Reply) :
    (s.withReply r).withReply r' = s.withReply r' := rfl

/-- A reply is no state of the block (R32). -/
theorem sameBlock_withReply (s : State) (r : Reply) : SameBlock s (s.withReply r) :=
  ⟨⟨rfl, rfl, rfl⟩, rfl⟩

theorem sameInputs_publish_withReply (s : State) (run : Run) (r : Reply) :
    SameInputs s ((s.publish run).withReply r) := ⟨rfl, rfl, rfl⟩

/-! ### Host reads and writes -/

theorem readEntry_of_some {k : PubKey} {s : State} {v : EntryValue} (h : s.pub.read k = some v) :
    readEntry k s = .next (s.withReply (.entry v)) := by
  simp [readEntry, h]

/-- A host read by name that answers leaves the block, so the same read answers the same state. -/
theorem readEntry_idempotent {k : PubKey} {s t : State} (h : readEntry k s = .next t) :
    SameBlock s t ∧ readEntry k t = .next t := by
  obtain ⟨v, hv, hs⟩ | ⟨-, hs⟩ := readEntry_cases k s
  · obtain rfl : s.withReply (.entry v) = t := by simpa [hs] using h
    exact ⟨sameBlock_withReply s _, readEntry_of_some (s := s.withReply _) hv⟩
  · simp [hs] at h

/-- A host read by an index that answers is the read by name of the key it names. -/
theorem readIndexed_eq_readEntry_of_next {i : BitVec 3} {s t : State}
    (h : readIndexed i s = .next t) : ∃ k, readIndexed i = readEntry k := by
  cases hk : PubKey.ofIndex i with
  | some k => exact ⟨k, funext fun s' => by simp [readIndexed, hk]⟩
  | none => simp [readIndexed, hk] at h

theorem readIndexed_idempotent {i : BitVec 3} {s t : State} (h : readIndexed i s = .next t) :
    SameBlock s t ∧ readIndexed i t = .next t := by
  obtain ⟨k, hk⟩ := readIndexed_eq_readEntry_of_next h
  rw [hk] at h ⊢
  exact readEntry_idempotent h

@[simp] theorem State.writeInput_writeInput (s : State) (w : InputWrite) :
    (s.writeInput w).writeInput w = s.writeInput w := by
  cases w <;> rfl

/-! ### SIMULATE -/

/-- The word is checked first, so its error is the run's (R176). -/
theorem execSimulate_of_word_error {s : State} {e : ErrorClass}
    (hd : validate 4 s.inputWord = .error e) : execSimulate s = .next (s.raiseError e) :=
  withVector_error hd s _

theorem execSimulate_of_mask_error {s : State} {d : DataWord} {e : ErrorClass}
    (hd : validate 4 s.inputWord = .ok d) (hm : validate 7 s.errorMask = .error e) :
    execSimulate s = .next (s.raiseError e) :=
  (withVector_ok hd s _).trans (withVector_error hm s _)

theorem execSimulate_of_ok {s : State} {d : DataWord} {m : ErrorMask}
    (hd : validate 4 s.inputWord = .ok d) (hm : validate 7 s.errorMask = .ok m) :
    execSimulate s = .next ((s.publish (simulateRun d m s.evenParity)).giveResult .done) :=
  (withVector_ok hd s _).trans (withVector_ok hm s _)

/-- The inputs alone fix what SIMULATE does (R155): the error class raised, or the run published, is
the same in all states that agree on them. -/
theorem execSimulate_of_sameInputs (s : State) :
    (∃ e, ∀ t, SameInputs s t → execSimulate t = .next (t.raiseError e)) ∨
    (∃ run, ∀ t, SameInputs s t → execSimulate t = .next ((t.publish run).giveResult .done)) := by
  cases hd : validate 4 s.inputWord with
  | error e =>
    refine .inl ⟨e, fun t ⟨hw, _, _⟩ => execSimulate_of_word_error ?_⟩
    rw [hw, hd]
  | ok d =>
    cases hm : validate 7 s.errorMask with
    | error e =>
      refine .inl ⟨e, fun t ⟨hw, hmask, _⟩ => execSimulate_of_mask_error (d := d) ?_ ?_⟩
      · rw [hw, hd]
      · rw [hmask, hm]
    | ok m =>
      refine .inr ⟨simulateRun d m s.evenParity, fun t ⟨hw, hmask, hep⟩ => ?_⟩
      rw [← hep]
      apply execSimulate_of_ok
      · rw [hw, hd]
      · rw [hmask, hm]

/-- SIMULATE answers, keeps the inputs, and run again answers the same state. -/
theorem execSimulate_idempotent (s : State) :
    ∃ t, execSimulate s = .next t ∧ SameInputs s t ∧ execSimulate t = .next t := by
  have hs : SameInputs s s := ⟨rfl, rfl, rfl⟩
  obtain ⟨e, h⟩ | ⟨run, h⟩ := execSimulate_of_sameInputs s
  · have ht : SameInputs s (s.raiseError e) := (sameBlock_withReply s _).1
    exact ⟨_, h s hs, ht, h _ ht⟩
  · have ht : SameInputs s ((s.publish run).giveResult .done) := sameInputs_publish_withReply s run _
    exact ⟨_, h s hs, ht, h _ ht⟩

/-- Settles O53: a read leaves the block it reads, the second of two equal writes finds its value
already there, and SIMULATE keeps the inputs that alone fix its answer. -/
theorem readsAndRunsAreIdempotent : Obligations.ReadsAndRunsAreIdempotent := by
  refine ⟨fun s t k h => readEntry_idempotent h, fun s t k h => readIndexed_idempotent h,
    fun s w => ⟨s.writeInput w, rfl, ?_⟩, execSimulate_idempotent⟩
  exact congrArg Host.Outcome.next (s.writeInput_writeInput w)

end Sys2Proof.Machine
end

section
/-! PROOFS. PARITY: the three sums mod 2 and the effect of the convention (R100, R101). -/

namespace Sys2Proof.Machine

open Sys2Proof.Safety

/-- A malformed operand ends an invocation that checks it with an error class (R173). -/
theorem withVector_of_not_isVector {n : Nat} {raw : Raw} (h : raw.isVector n = false)
    (s : State) (k : BitVec n → Answer) : ∃ e, withVector n raw s k = .next (s.raiseError e) := by
  obtain ⟨e, he⟩ := validate_of_not_isVector h
  exact ⟨e, withVector_error he s k⟩

/-! ### The bits of the parity -/

theorem getLsbD_zero_computeParity (d : DataWord) (ep : Bool) :
    (computeParity d ep).getLsbD 0 =
      (d.getLsbD 0 ^^ d.getLsbD 1 ^^ d.getLsbD 3 ^^ parityOffset ep) := by
  rw [computeParity, getLsbD_ofBools]; rfl

theorem getLsbD_one_computeParity (d : DataWord) (ep : Bool) :
    (computeParity d ep).getLsbD 1 =
      (d.getLsbD 0 ^^ d.getLsbD 2 ^^ d.getLsbD 3 ^^ parityOffset ep) := by
  rw [computeParity, getLsbD_ofBools]; rfl

theorem getLsbD_two_computeParity (d : DataWord) (ep : Bool) :
    (computeParity d ep).getLsbD 2 =
      (d.getLsbD 1 ^^ d.getLsbD 2 ^^ d.getLsbD 3 ^^ parityOffset ep) := by
  rw [computeParity, getLsbD_ofBools]; rfl

/-- The offset of the other convention is the complement. -/
theorem parityOffset_not (ep : Bool) : parityOffset (!ep) = !parityOffset ep := rfl

/-- The offset enters each parity bit as one term of an XOR, so complementing it complements the bit. -/
theorem getLsbD_computeParity_not (d : DataWord) (ep : Bool) {i : Nat} (hi : i < 3) :
    (computeParity d (!ep)).getLsbD i = !(computeParity d ep).getLsbD i := by
  match i, hi with
  | 0, _ => simp only [getLsbD_zero_computeParity, parityOffset_not, Bool.xor_not]
  | 1, _ => simp only [getLsbD_one_computeParity, parityOffset_not, Bool.xor_not]
  | 2, _ => simp only [getLsbD_two_computeParity, parityOffset_not, Bool.xor_not]

/-! ### XOR as a sum mod 2 (R11) -/

theorem toNat_xor_eq_add_mod_two (a b : Bool) : (a ^^ b).toNat = (a.toNat + b.toNat) % 2 := by
  cases a <;> cases b <;> rfl

theorem toNat_parityOffset (ep : Bool) : (parityOffset ep).toNat = offset ep := by
  cases ep <;> rfl

/-- A parity bit as a number: the XOR of three elements and the offset is their sum mod 2. -/
theorem toNat_xor_parityOffset (a b c ep : Bool) :
    (a ^^ b ^^ c ^^ parityOffset ep).toNat = (a.toNat + b.toNat + c.toNat + offset ep) % 2 := by
  simp only [toNat_xor_eq_add_mod_two, toNat_parityOffset, Nat.mod_add_mod]

/-! ### The operation -/

/-- PARITY of a data word hands back its parity and changes nothing else. -/
theorem gives_parity (d : DataWord) (ep : Bool) (s : State) :
    Gives (.parity (rawOf d) ep) s (.parity (computeParity d ep)) :=
  execParity_rawOf d ep s

/-- Settles O11: PARITY of a data word answers `computeParity`, whose bits are XORs of three elements
and the offset, each equal to the sum mod 2; a malformed operand fails its check. -/
theorem parityComputesTheCheckBits : Obligations.ParityComputesTheCheckBits := by
  constructor
  · intro d ep s
    refine ⟨computeParity d ep, gives_parity d ep s, ?_, ?_, ?_,
      getLsbD_zero_computeParity d ep, getLsbD_one_computeParity d ep,
      getLsbD_two_computeParity d ep⟩
    · rw [el, getLsbD_zero_computeParity]
      exact toNat_xor_parityOffset ..
    · rw [el, getLsbD_one_computeParity]
      exact toNat_xor_parityOffset ..
    · rw [el, getLsbD_two_computeParity]
      exact toNat_xor_parityOffset ..
  · intro raw ep s h
    exact withVector_of_not_isVector h s _

/-- Settles O12: both runs complete, and odd parity is even parity with the offset complemented. -/
theorem conventionComplementsEveryParityBit : Obligations.ConventionComplementsEveryParityBit :=
  fun d s => ⟨_, _, gives_parity d true s, gives_parity d false s,
    fun _ hi => getLsbD_computeParity_not d true hi⟩

end Sys2Proof.Machine
end

section
/-! PROOFS. ASSEMBLE and DISASSEMBLE: the wiring of a codeword and its inverse (R110 to R112). -/

namespace Sys2Proof.Machine

open Sys2Proof.Safety

/-- An invocation that checks two operands ends with an error class if either is malformed (R176). -/
theorem withVector_withVector_of_not_isVector {m n : Nat} {a b : Raw}
    (h : (a.isVector m && b.isVector n) = false) (s : State) (k : BitVec m → BitVec n → Answer) :
    ∃ e, withVector m a s (fun v => withVector n b s (k v)) = .next (s.raiseError e) := by
  cases ha : a.isVector m with
  | false => exact withVector_of_not_isVector ha s _
  | true =>
    have hb : b.isVector n = false := by simpa [ha] using h
    obtain ⟨v, rfl⟩ := exists_rawOf_of_isVector ha
    rw [withVector_rawOf]
    exact withVector_of_not_isVector hb s (k v)

/-! ### The wiring -/

/-- The layout of R73: each element of a codeword is one element of the data or of the parity. -/
theorem getLsbD_assemble (d : DataWord) (p : CheckWord) :
    (assemble d p).getLsbD 0 = p.getLsbD 0 ∧ (assemble d p).getLsbD 1 = p.getLsbD 1 ∧
    (assemble d p).getLsbD 2 = d.getLsbD 0 ∧ (assemble d p).getLsbD 3 = p.getLsbD 2 ∧
    (assemble d p).getLsbD 4 = d.getLsbD 1 ∧ (assemble d p).getLsbD 5 = d.getLsbD 2 ∧
    (assemble d p).getLsbD 6 = d.getLsbD 3 := by
  simp only [assemble, getLsbD_ofBools]
  exact ⟨rfl, rfl, rfl, rfl, rfl, rfl, rfl⟩

/-- The data part of a word is its positions 3, 5, 6, 7. -/
theorem getLsbD_dataPart (c : Codeword) :
    (dataPart c).getLsbD 0 = c.getLsbD 2 ∧ (dataPart c).getLsbD 1 = c.getLsbD 4 ∧
    (dataPart c).getLsbD 2 = c.getLsbD 5 ∧ (dataPart c).getLsbD 3 = c.getLsbD 6 := by
  simp only [dataPart, getLsbD_ofBools]
  exact ⟨rfl, rfl, rfl, rfl⟩

/-- The parity part of a word is its positions 1, 2, 4. -/
theorem getLsbD_parityPart (c : Codeword) :
    (parityPart c).getLsbD 0 = c.getLsbD 0 ∧ (parityPart c).getLsbD 1 = c.getLsbD 1 ∧
    (parityPart c).getLsbD 2 = c.getLsbD 3 := by
  simp only [parityPart, getLsbD_ofBools]
  exact ⟨rfl, rfl, rfl⟩

/-- The positions read as data are the ones the data went to, in order. -/
@[simp] theorem dataPart_assemble (d : DataWord) (p : CheckWord) : dataPart (assemble d p) = d := by
  obtain ⟨-, -, h0, -, h1, h2, h3⟩ := getLsbD_assemble d p
  calc dataPart (assemble d p)
      = ofBools 4 (toBools d) := by rw [dataPart, h0, h1, h2, h3]; rfl
    _ = d := ofBools_toBools d

/-- The positions read as parity are the ones the parity went to, in order. -/
@[simp] theorem parityPart_assemble (d : DataWord) (p : CheckWord) :
    parityPart (assemble d p) = p := by
  obtain ⟨h0, h1, -, h2, -⟩ := getLsbD_assemble d p
  calc parityPart (assemble d p)
      = ofBools 3 (toBools p) := by rw [parityPart, h0, h1, h2]; rfl
    _ = p := ofBools_toBools p

/-! ### The operations -/

/-- ASSEMBLE of a data word and a parity word hands back their codeword and changes nothing else. -/
theorem gives_assemble (d : DataWord) (p : CheckWord) (s : State) :
    Gives (.assemble (rawOf d) (rawOf p)) s (.codeword (assemble d p)) :=
  execAssemble_rawOf d p s

/-- DISASSEMBLE of a 7-bit word hands back its two parts and changes nothing else. -/
theorem gives_disassemble (c : Codeword) (s : State) :
    Gives (.disassemble (rawOf c)) s (.split (dataPart c) (parityPart c)) :=
  execDisassemble_rawOf c s

/-- DISASSEMBLE of an assembled codeword hands back what it was assembled from. -/
theorem gives_disassemble_assemble (d : DataWord) (p : CheckWord) (s : State) :
    Gives (.disassemble (rawOf (assemble d p))) s (.split d p) := by
  simpa only [dataPart_assemble, parityPart_assemble] using gives_disassemble (assemble d p) s

/-- Settles O14: ASSEMBLE of well-formed operands answers `assemble`, whose elements are the layout's;
a malformed operand, the first or the second, fails its check. -/
theorem assembleInterleaves : Obligations.AssembleInterleaves :=
  ⟨fun d p s => ⟨assemble d p, gives_assemble d p s, getLsbD_assemble d p⟩,
    fun _ _ s h => withVector_withVector_of_not_isVector h s _⟩

/-- Settles O15: DISASSEMBLE of a 7-bit word answers its data and parity parts, each element of which
is one of the word's; a malformed operand fails its check. -/
theorem disassembleSplits : Obligations.DisassembleSplits := by
  constructor
  · intro c s
    obtain ⟨hd0, hd1, hd2, hd3⟩ := getLsbD_dataPart c
    exact ⟨dataPart c, parityPart c, gives_disassemble c s, hd0, hd1, hd2, hd3, getLsbD_parityPart c⟩
  · intro raw s h
    exact withVector_of_not_isVector h s _

/-- Settles O16: the parts of an assembled codeword are its operands, whatever the parity word is, so
for the computed one too. -/
theorem disassembleInvertsAssemble : Obligations.DisassembleInvertsAssemble :=
  fun d s =>
    ⟨fun p => ⟨_, gives_assemble d p s, gives_disassemble_assemble d p s⟩,
      fun ep => ⟨_, _, gives_parity d ep s, gives_assemble d _ s, gives_disassemble_assemble d _ s⟩⟩

end Sys2Proof.Machine
end

section
/-! PROOFS. APPLY_ERROR: the exclusive or of word and mask, and its identity (R120, R121). -/

namespace Sys2Proof.Machine

open Sys2Proof.Safety

/-- An error flips exactly the elements its mask marks (R120). -/
theorem getLsbD_applyError (c : Codeword) (m : ErrorMask) (i : Nat) :
    (applyError c m).getLsbD i = (c.getLsbD i ^^ m.getLsbD i) :=
  BitVec.getLsbD_xor

/-- The channel without an error hands the word on. -/
@[simp] theorem applyError_zero (c : Codeword) : applyError c 0 = c :=
  BitVec.xor_zero

/-- The mask without an error, written out as the host writes it. -/
theorem rawOf_zero_errorMask : rawOf (0 : ErrorMask) = [0, 0, 0, 0, 0, 0, 0] := by decide

/-- APPLY_ERROR of a 7-bit word and a mask hands back the received word and changes nothing else. -/
theorem gives_applyError (c : Codeword) (m : ErrorMask) (s : State) :
    Gives (.applyError (rawOf c) (rawOf m)) s (.received (applyError c m)) :=
  execApplyError_rawOf c m s

/-- Settles O18: APPLY_ERROR of well-formed operands answers `applyError`, an exclusive or element by
element; a malformed operand, the first or the second, fails its check. -/
theorem applyErrorIsExclusiveOr : Obligations.ApplyErrorIsExclusiveOr :=
  ⟨fun c m s => ⟨applyError c m, gives_applyError c m s, fun i _ => getLsbD_applyError c m i⟩,
    fun _ _ s h => withVector_withVector_of_not_isVector h s _⟩

/-- Settles O19: the raw mask of zeros is the zero vector, whose exclusive or with a word is the word. -/
theorem zeroMaskIsTheIdentity : Obligations.ZeroMaskIsTheIdentity := by
  intro c s
  have h := gives_applyError c 0 s
  rwa [rawOf_zero_errorMask, applyError_zero] at h

end Sys2Proof.Machine
end

section
/-! PROOFS. SYNDROME, and how an error-free codeword passes LOCATE and CORRECT (R130, R131, R143). -/

namespace Sys2Proof.Machine

open Sys2Proof.Safety

/-! ### The syndrome -/

/-- An element of the syndrome says whether recomputed and received parity differ there (R130). -/
theorem getLsbD_computeSyndrome (r : Codeword) (ep : Bool) (i : Nat) :
    (computeSyndrome r ep).getLsbD i =
      ((computeParity (dataPart r) ep).getLsbD i ^^ (parityPart r).getLsbD i) :=
  BitVec.getLsbD_xor

/-- The parity of an assembled codeword's data is recomputed exactly, so its syndrome is the
difference from the parity it was assembled with. -/
theorem computeSyndrome_assemble (d : DataWord) (p : CheckWord) (ep : Bool) :
    computeSyndrome (assemble d p) ep = computeParity d ep ^^^ p := by
  rw [computeSyndrome, dataPart_assemble, parityPart_assemble]

/-- A codeword built under a convention has zero syndrome under it (R131). -/
theorem computeSyndrome_assemble_computeParity (d : DataWord) (ep : Bool) :
    computeSyndrome (assemble d (computeParity d ep)) ep = 0 :=
  (computeSyndrome_assemble d _ ep).trans BitVec.xor_self

/-! ### The corrector on the zero syndrome -/

/-- The zero syndrome, written out as a raw operand. -/
theorem rawOf_zero_syndrome : rawOf (0 : Syndrome) = [0, 0, 0] := by decide

/-- The zero syndrome names position 0, no element of the word (R140). -/
theorem locateError_zero : locateError 0 = 0 := by decide

/-- Position 0 flips nothing (R141). -/
@[simp] theorem correct_zero (c : Codeword) : correct c 0 = c := rfl

/-! ### The operations -/

/-- SYNDROME of a 7-bit word hands back its syndrome and changes nothing else. -/
theorem gives_syndrome (r : Codeword) (ep : Bool) (s : State) :
    Gives (.syndrome (rawOf r) ep) s (.syndrome (computeSyndrome r ep)) :=
  execSyndrome_rawOf r ep s

/-- LOCATE of a syndrome hands back the position it names and changes nothing else. -/
theorem gives_locate (v : Syndrome) (s : State) :
    Gives (.locate (rawOf v)) s (.position (locateError v)) :=
  execLocate_rawOf v s

/-- CORRECT of a 7-bit word at an error position hands back the corrected word and changes nothing
else. -/
theorem gives_correct (r : Codeword) (p : ErrorPosition) (s : State) :
    Gives (.correct (rawOf r) p.val) s (.corrected (correct r p)) :=
  execCorrect_rawOf r p s

/-- SYNDROME of a codeword under the convention it was built under hands back the zero syndrome. -/
theorem gives_syndrome_zero (d : DataWord) (ep : Bool) (s : State) :
    Gives (.syndrome (rawOf (assemble d (computeParity d ep))) ep) s (.syndrome 0) := by
  simpa only [computeSyndrome_assemble_computeParity] using
    gives_syndrome (assemble d (computeParity d ep)) ep s

/-- Settles O22: SYNDROME of a 7-bit word answers `computeSyndrome`, the exclusive or of what PARITY
answers for the data DISASSEMBLE hands back and of the parity it hands back; a malformed operand
fails its check. -/
theorem syndromeComparesParities : Obligations.SyndromeComparesParities := by
  constructor
  · intro r ep s
    exact ⟨dataPart r, parityPart r, computeParity (dataPart r) ep, gives_disassemble r s,
      gives_parity _ ep s, computeSyndrome r ep, gives_syndrome r ep s,
      fun i _ => getLsbD_computeSyndrome r ep i⟩
  · intro raw ep s h
    exact withVector_of_not_isVector h s _

/-- Settles O30: the zero mask hands the codeword on, its recomputed parity is the one it carries, the
zero syndrome names position 0, and CORRECT flips nothing there. -/
theorem errorFreeCodewordPassesUnchanged : Obligations.ErrorFreeCodewordPassesUnchanged := by
  refine ⟨fun d ep s => ?_, fun s => ?_, fun c s => ?_⟩
  · exact ⟨computeParity d ep, assemble d (computeParity d ep), gives_parity d ep s,
      gives_assemble d _ s, zeroMaskIsTheIdentity _ s, gives_syndrome_zero d ep s⟩
  · simpa only [rawOf_zero_syndrome, locateError_zero] using gives_locate 0 s
  · simpa only [correct_zero, Fin.val_zero, Nat.cast_zero] using gives_correct c 0 s

end Sys2Proof.Machine
end

section
/-! PROOFS. LOCATE, CORRECT and single-error correction: the syndrome of a sent codeword with
an error is that of the error alone, which spells the position in binary (R140, R141, R142). -/

namespace Sys2Proof.Machine

open Sys2Proof.Safety

/-- An invocation hands back one result. -/
theorem gives_unique {i : Instr} {s : State} {r r' : Result} (h : Gives i s r)
    (h' : Gives i s r') : r = r' := by
  injection h.symm.trans h' with hstate
  injection congrArg State.reply hstate

/-! ### The located position -/

/-- The weighted sum of a syndrome's elements is its value as a number, element 0 the lowest. -/
theorem toNat_eq_weightedSum (y : Syndrome) : y.toNat = 4 * el y 2 + 2 * el y 1 + el y 0 := by
  revert y
  decide

/-- The located position is the syndrome's value as a number: the reduction mod 8 loses nothing. -/
@[simp] theorem val_locateError (y : Syndrome) : (locateError y).val = y.toNat := by
  have hsum : (locateError y).val = (4 * el y 2 + 2 * el y 1 + el y 0) % 8 := rfl
  rw [hsum, ← toNat_eq_weightedSum, Nat.mod_eq_of_lt y.isLt]

/-- Different syndromes name different positions. -/
theorem locateError_injective : Function.Injective locateError := fun y y' h =>
  BitVec.eq_of_toNat_eq (by rw [← val_locateError, h, val_locateError])

/-- The syndrome that spells a position names it. -/
@[simp] theorem locateError_ofNat (n : ErrorPosition) : locateError (BitVec.ofNat 3 n.val) = n :=
  Fin.ext ((val_locateError _).trans (Nat.mod_eq_of_lt n.isLt))

/-- LOCATE of the syndrome that spells a position hands back that position. -/
theorem gives_locate_ofNat (n : ErrorPosition) (s : State) :
    Gives (.locate (rawOf (BitVec.ofNat 3 n.val))) s (.position n) := by
  simpa only [locateError_ofNat] using gives_locate (BitVec.ofNat 3 n.val) s

/-- Settles O26: LOCATE of a syndrome answers `locateError`, the syndrome's value as a number, so
each position is named by the one syndrome that spells it; a malformed operand fails its check. -/
theorem locateIsTheWeightedSum : Obligations.LocateIsTheWeightedSum := by
  refine ⟨fun y s => ?_, fun n s => ?_, fun raw s h => withVector_of_not_isVector h s _⟩
  · exact ⟨locateError y, gives_locate y s, (val_locateError y).trans (toNat_eq_weightedSum y)⟩
  · refine ⟨BitVec.ofNat 3 n.val, gives_locate_ofNat n s, fun y' hy' => locateError_injective ?_⟩
    injection gives_unique (gives_locate y' s) hy' with hloc
    rw [hloc, locateError_ofNat]

/-! ### The corrected word -/

/-- CORRECT complements the element before the position and copies every other; no element stands
before position 0. -/
theorem getLsbD_correct (r : Codeword) (p : ErrorPosition) {i : Nat} (hi : i < 7) :
    (correct r p).getLsbD i = if i + 1 = p.val then !r.getLsbD i else r.getLsbD i := by
  unfold correct
  split
  · next hp => rw [if_neg (by omega)]
  · next hp =>
    have hiff : i = p.val - 1 ↔ i + 1 = p.val := by omega
    simp only [getLsbD_complementBit, hi, hiff, decide_true, Bool.true_and]

/-- An integer in 0..7 is an error position. -/
theorem exists_errorPosition {n : Int} (h0 : 0 ≤ n) (h7 : n ≤ 7) :
    ∃ p : ErrorPosition, n = p.val :=
  ⟨⟨n.toNat, by omega⟩, (Int.toNat_of_nonneg h0).symm⟩

/-- Settles O27: CORRECT at a position 0..7 answers `correct`, which flips the element the position
names and at 0 none; a malformed word fails its check before the position is looked at. -/
theorem correctFlipsTheBitItIsGiven : Obligations.CorrectFlipsTheBitItIsGiven := by
  refine ⟨fun r n s h0 h7 => ?_, fun raw n s h _ _ => withVector_of_not_isVector h s _⟩
  obtain ⟨p, rfl⟩ := exists_errorPosition h0 h7
  refine ⟨correct r p, gives_correct r p s, fun hp => ?_, fun _ i hi => ?_⟩
  · have hp0 : p = 0 := Fin.ext (Int.ofNat_eq_zero.1 hp)
    rw [hp0, correct_zero]
  · have hiff : i + 1 = p.val ↔ (i : Int) = p.val - 1 := by omega
    simp only [getLsbD_correct r p hi, hiff]

/-! ### The error at a position -/

/-- The mask of the channel's error at a position (R90), position 0 being no error (R28). -/
def errorAt (p : ErrorPosition) : ErrorMask := if p.val = 0 then 0 else unit7 p.val

/-- The mask marks the element before the position; no element stands before position 0. -/
theorem getLsbD_errorAt (p : ErrorPosition) {i : Nat} (hi : i < 7) :
    (errorAt p).getLsbD i = decide (i + 1 = p.val) := by
  unfold errorAt
  split
  · next hp => simp [hp]
  · rw [getLsbD_unit7, decide_eq_true hi, Bool.true_and, beq_eq_decide]

/-- CORRECT flips what the channel's error at that position flips (R123). -/
theorem correct_eq_applyError (r : Codeword) (p : ErrorPosition) :
    correct r p = applyError r (errorAt p) := by
  refine BitVec.eq_of_getLsbD_eq fun i hi => ?_
  rw [getLsbD_correct r p hi, getLsbD_applyError, getLsbD_errorAt p hi]
  by_cases h : i + 1 = p.val
  · simp only [h, if_true, decide_true, Bool.xor_true]
  · simp only [h, if_false, decide_false, Bool.xor_false]

/-- Correcting the position of the channel's error undoes the error. -/
theorem correct_applyError_errorAt (c : Codeword) (p : ErrorPosition) :
    correct (applyError c (errorAt p)) p = c := by
  rw [correct_eq_applyError, applyError, applyError, BitVec.xor_assoc, BitVec.xor_self,
    BitVec.xor_zero]

/-! ### The syndrome of a word with an error -/

/-- The exclusive or of two literals is taken element by element. -/
theorem ofBools_xor_ofBools (n : Nat) {as bs : List Bool} (h : as.length = bs.length) :
    ofBools n as ^^^ ofBools n bs = ofBools n (List.zipWith xor as bs) := by
  refine BitVec.eq_of_getLsbD_eq fun i hi => ?_
  simp only [BitVec.getLsbD_xor, getLsbD_ofBools, hi, decide_true, Bool.true_and]
  by_cases ha : i < as.length
  · have hb : i < bs.length := h ▸ ha
    simp [ha, hb]
  · have hb : ¬ i < bs.length := h ▸ ha
    simp [ha, hb]

theorem dataPart_applyError (c : Codeword) (m : ErrorMask) :
    dataPart (applyError c m) = dataPart c ^^^ dataPart m := by
  simp only [dataPart, getLsbD_applyError]
  rw [ofBools_xor_ofBools]
  · rfl
  · rfl

theorem parityPart_applyError (c : Codeword) (m : ErrorMask) :
    parityPart (applyError c m) = parityPart c ^^^ parityPart m := by
  simp only [parityPart, getLsbD_applyError]
  rw [ofBools_xor_ofBools]
  · rfl
  · rfl

/-- Parity is linear but for the offset, which enters once. -/
theorem computeParity_xor (d e : DataWord) (ep : Bool) :
    computeParity (d ^^^ e) ep = computeParity d ep ^^^ computeParity e true := by
  simp only [computeParity, BitVec.getLsbD_xor]
  rw [ofBools_xor_ofBools]
  · congr 1
    simp [parityOffset, Bool.xor_left_comm, Bool.xor_comm]
  · rfl

/-- An error shifts the syndrome by its own even-parity syndrome, whatever the word and the
convention. -/
theorem computeSyndrome_applyError (c : Codeword) (m : ErrorMask) (ep : Bool) :
    computeSyndrome (applyError c m) ep = computeSyndrome c ep ^^^ computeSyndrome m true := by
  simp only [computeSyndrome, dataPart_applyError, parityPart_applyError, computeParity_xor]
  ac_rfl

/-- The syndrome of a sent codeword with an error is that of the error alone. -/
theorem computeSyndrome_applyError_codeword (d : DataWord) (m : ErrorMask) (ep : Bool) :
    computeSyndrome (applyError (assemble d (computeParity d ep)) m) ep =
      computeSyndrome m true := by
  rw [computeSyndrome_applyError, computeSyndrome_assemble_computeParity]
  exact BitVec.zero_xor

/-- The property the layout of the code is chosen for: the syndrome of an error at a position spells
that position. -/
theorem computeSyndrome_errorAt (p : ErrorPosition) :
    computeSyndrome (errorAt p) true = BitVec.ofNat 3 p.val := by
  revert p
  decide

/-! ### The operations on a word with an error -/

/-- SYNDROME of a sent codeword with an error hands back the error's position, spelled in binary. -/
theorem gives_syndrome_errorAt (d : DataWord) (p : ErrorPosition) (ep : Bool) (s : State) :
    Gives (.syndrome (rawOf (applyError (assemble d (computeParity d ep)) (errorAt p))) ep) s
      (.syndrome (BitVec.ofNat 3 p.val)) := by
  simpa only [computeSyndrome_applyError_codeword, computeSyndrome_errorAt] using
    gives_syndrome (applyError (assemble d (computeParity d ep)) (errorAt p)) ep s

/-- CORRECT of a word with an error, at the error's position, hands back the word before the
error. -/
theorem gives_correct_errorAt (c : Codeword) (p : ErrorPosition) (s : State) :
    Gives (.correct (rawOf (applyError c (errorAt p))) p.val) s (.corrected c) := by
  simpa only [correct_applyError_errorAt] using gives_correct (applyError c (errorAt p)) p s

/-- Settles O29: the syndrome of the received word is that of the error alone, which spells `p`, and
CORRECT at `p` flips back what the channel flipped. -/
theorem singleErrorIsLocatedAndCorrected : Obligations.SingleErrorIsLocatedAndCorrected :=
  fun d ep p s => ⟨_, _, _, _, gives_parity d ep s, gives_assemble d _ s,
    gives_applyError _ (errorAt p) s, gives_syndrome_errorAt d p ep s, gives_locate_ofNat p s,
    gives_correct_errorAt _ p s⟩

end Sys2Proof.Machine
end

section
/-! PROOFS. ENCODE as ASSEMBLE after PARITY, the steps of SIMULATE, and that the inputs alone fix its
outcome (R150, R152, R153, R155). -/

namespace Sys2Proof.Machine

open Sys2Proof.Safety

/-! ### ENCODE -/

/-- ENCODE of a data word hands back what ASSEMBLE makes of the word and its parity, and changes
nothing else. -/
theorem gives_encode (d : DataWord) (ep : Bool) (s : State) :
    Gives (.encode (rawOf d) ep) s (.codeword (assemble d (computeParity d ep))) :=
  execEncode_rawOf d ep s

/-- Settles O35: ENCODE of a data word answers the codeword ASSEMBLE answers for the word and the
parity PARITY answers; a malformed operand fails its check. -/
theorem encodeIsAssembleAfterParity : Obligations.EncodeIsAssembleAfterParity := by
  constructor
  · intro d ep s
    exact ⟨computeParity d ep, assemble d (computeParity d ep), gives_parity d ep s,
      gives_assemble d _ s, gives_encode d ep s⟩
  · intro raw ep s h
    exact withVector_of_not_isVector h s _

/-! ### SIMULATE -/

/-- Settles O37: a run on well-formed inputs publishes `simulateRun`, and each of its values is what
the component operation answers for the values before it. -/
theorem simulatePublishesItsRun : Obligations.SimulatePublishesItsRun := by
  intro s d m hd hm
  exact ⟨_, _, _, _, _, _, _, _,
    gives_parity d s.evenParity s, gives_assemble d _ s, gives_applyError _ m s,
    gives_syndrome _ s.evenParity s, gives_locate _ s, gives_correct _ _ s, gives_disassemble _ s,
    execSimulate_rawOf s d m hd hm⟩

/-- Settles O39: the inputs fix either one error class, raised in both states, or one run, published
in both. -/
theorem simulateDependsOnItsInputsAlone : Obligations.SimulateDependsOnItsInputsAlone := by
  intro s s' hss'
  have hs : SameInputs s s := ⟨rfl, rfl, rfl⟩
  obtain ⟨e, h⟩ | ⟨run, h⟩ := execSimulate_of_sameInputs s
  · refine ⟨s.raiseError e, s'.raiseError e, h s hs, h s' hss', rfl, fun hdone => ?_⟩
    cases hdone
  · exact ⟨(s.publish run).giveResult .done, (s'.publish run).giveResult .done,
      h s hs, h s' hss', rfl, fun _ => rfl⟩

end Sys2Proof.Machine
end

section
/-! PROOFS. The two error classes: the first malformed operand of an invocation, its length checked
before its values, is the one whose class is raised (R171, R172, R175, R176). -/

namespace Sys2Proof.Machine

open Sys2Proof.Safety

/-! ### The check of one operand -/

/-- The element test of `validate` (R175) finds something exactly when some element is no bit. -/
theorem any_not_bit_iff (n : Nat) (raw : Raw) :
    raw.any (fun x => x != 0 && x != 1) = true ↔ ¬ OnlyBits (n, raw) := by
  simp [OnlyBits]

theorem validate_of_not_rightLength {n : Nat} {raw : Raw} (hl : ¬ RightLength (n, raw)) :
    validate n raw = .error .invalidLength := if_pos hl

theorem validate_of_not_onlyBits {n : Nat} {raw : Raw} (hl : RightLength (n, raw))
    (hb : ¬ OnlyBits (n, raw)) : validate n raw = .error .invalidBitValue :=
  (if_neg (not_not.2 hl)).trans (if_pos ((any_not_bit_iff n raw).2 hb))

theorem validate_of_onlyBits {n : Nat} {raw : Raw} (hl : RightLength (n, raw))
    (hb : OnlyBits (n, raw)) : validate n raw = .ok (ofRaw n raw) :=
  (if_neg (not_not.2 hl)).trans (if_neg fun hany => (any_not_bit_iff n raw).1 hany hb)

/-! ### The first malformed operand -/

/-- An operand in front of others: either its own check fails with the list's error, or it passes and
the error is that of the rest. -/
theorem withVector_of_firstError {n : Nat} {raw : Raw} {rest : List (Nat × Raw)} {e : ErrorClass}
    {s : State} {k : BitVec n → Answer} (h : FirstError e ((n, raw) :: rest))
    (hrest : FirstError e rest → ∀ v, k v = .next (s.raiseError e)) :
    withVector n raw s k = .next (s.raiseError e) := by
  obtain ⟨hl, rfl⟩ | ⟨hl, hb, rfl⟩ | ⟨hl, hb, hr⟩ := h
  · exact withVector_error (validate_of_not_rightLength hl) s k
  · exact withVector_error (validate_of_not_onlyBits hl hb) s k
  · rw [withVector_ok (validate_of_onlyBits hl hb)]
    exact hrest hr _

/-- An invocation that checks one operand raises its error. -/
theorem withVector_of_firstError_single {n : Nat} {raw : Raw} {e : ErrorClass} {s : State}
    {k : BitVec n → Answer} (h : FirstError e [(n, raw)]) :
    withVector n raw s k = .next (s.raiseError e) :=
  withVector_of_firstError h False.elim

/-- An invocation that checks two operands raises the error of the first malformed one. -/
theorem withVector_of_firstError_pair {m n : Nat} {a b : Raw} {e : ErrorClass} {s : State}
    {k : BitVec m → BitVec n → Answer} (h : FirstError e [(m, a), (n, b)]) :
    withVector m a s (fun v => withVector n b s (k v)) = .next (s.raiseError e) :=
  withVector_of_firstError h fun hb _ => withVector_of_firstError_single hb

/-- Every operation raises the error of the first malformed operand it checks (R176); CORRECT does so
whatever its position, which it looks at last. -/
theorem raises_of_firstError {i : Instr} {s : State} {e : ErrorClass}
    (h : FirstError e (checkedOperands s i)) : Raises i s e :=
  match i with
  | .parity _ _ => withVector_of_firstError_single h
  | .assemble _ _ => withVector_of_firstError_pair h
  | .disassemble _ => withVector_of_firstError_single h
  | .applyError _ _ => withVector_of_firstError_pair h
  | .syndrome _ _ => withVector_of_firstError_single h
  | .locate _ => withVector_of_firstError_single h
  | .correct _ _ => withVector_of_firstError_single h
  | .encode _ _ => withVector_of_firstError_single h
  | .decode _ _ => withVector_of_firstError_single h
  | .simulate => withVector_of_firstError_pair h

/-! ### Operands with errors of one class alone -/

/-- Where every element is a bit, the first malformed operand is malformed by its length. -/
theorem firstError_invalidLength {ops : List (Nat × Raw)} (hbits : ∀ o ∈ ops, OnlyBits o)
    (hbad : ∃ o ∈ ops, ¬ RightLength o) : FirstError .invalidLength ops := by
  induction ops with
  | nil => simp at hbad
  | cons o rest ih =>
    obtain ⟨hbo, hbits⟩ := List.forall_mem_cons.1 hbits
    rw [List.exists_mem_cons_iff] at hbad
    by_cases hl : RightLength o
    · exact .inr (.inr ⟨hl, hbo, ih hbits (hbad.resolve_left (not_not.2 hl))⟩)
    · exact .inl ⟨hl, rfl⟩

/-- Where every length is right, the first malformed operand is malformed by an element. -/
theorem firstError_invalidBitValue {ops : List (Nat × Raw)} (hlens : ∀ o ∈ ops, RightLength o)
    (hbad : ∃ o ∈ ops, ¬ OnlyBits o) : FirstError .invalidBitValue ops := by
  induction ops with
  | nil => simp at hbad
  | cons o rest ih =>
    obtain ⟨hlo, hlens⟩ := List.forall_mem_cons.1 hlens
    rw [List.exists_mem_cons_iff] at hbad
    by_cases hb : OnlyBits o
    · exact .inr (.inr ⟨hlo, hb, ih hlens (hbad.resolve_left (not_not.2 hb))⟩)
    · exact .inr (.inl ⟨hlo, hb, rfl⟩)

/-- Settles O43: with every element a bit, the first malformed operand has a wrong length, and every
operation raises the error of its first malformed operand. -/
theorem wrongLengthRaisesInvalidLength : Obligations.WrongLengthRaisesInvalidLength :=
  fun _ _ _ hbits hbad => raises_of_firstError (firstError_invalidLength hbits hbad)

/-- Settles O44: with every length right, the first malformed operand holds an element that is no bit,
and every operation raises the error of its first malformed operand. -/
theorem otherElementRaisesInvalidBitValue : Obligations.OtherElementRaisesInvalidBitValue :=
  fun _ _ _ hlens hbad => raises_of_firstError (firstError_invalidBitValue hlens hbad)

end Sys2Proof.Machine
end

section
/-! PROOFS. Everything an invocation can do, said once; that it leaves the inputs and always answers
(R192, R201). -/

namespace Sys2Proof.Machine

open Sys2Proof.Safety

/-! ### The ways an invocation concludes -/

/-- The answers open to an invocation: raise an error class and change nothing else; return a result and
change nothing else; as SIMULATE, publish a run and return success; as CORRECT, be refused for a
position that is none (R32, R60, R173; U3). -/
inductive Concludes : Instr → State → Answer → Prop where
  | raised {i : Instr} {s : State} (e : ErrorClass) : Concludes i s (.next (s.raiseError e))
  | returned {i : Instr} {s : State} (r : Result) : Concludes i s (.next (s.giveResult r))
  | published {s : State} (run : Run) :
      Concludes .simulate s (.next ((s.publish run).giveResult .done))
  | refused {s : State} {received : Raw} {n : Int} (hn : positionOf n = none) :
      Concludes (.correct received n) s (.refused (.positionOutOfRange n))

/-- An operand's check adds no way but to raise its error. -/
theorem Concludes.withVector {i : Instr} {s : State} {n : Nat} {raw : Raw} {k : BitVec n → Answer}
    (h : ∀ v, Concludes i s (k v)) : Concludes i s (withVector n raw s k) := by
  obtain ⟨e, -, he⟩ | ⟨v, -, hv⟩ := withVector_cases n raw s k
  · rw [he]
    exact .raised e
  · rw [hv]
    exact h v

/-- CORRECT's position adds no way but the refusal. -/
theorem Concludes.withPosition {received : Raw} {n : Int} {s : State} {k : ErrorPosition → Answer}
    (h : ∀ p, Concludes (.correct received n) s (k p)) :
    Concludes (.correct received n) s (withPosition n k) := by
  obtain ⟨p, -, hp⟩ | ⟨hn, hr⟩ := withPosition_cases n k
  · rw [hp]
    exact h p
  · rw [hr]
    exact .refused hn

/-- Every operation checks its operands and then returns a result, SIMULATE publishing its run first. -/
theorem exec_concludes (i : Instr) (s : State) : Concludes i s (exec i s) :=
  match i with
  | .parity _ _ => .withVector fun _ => .returned _
  | .assemble _ _ => .withVector fun _ => .withVector fun _ => .returned _
  | .disassemble _ => .withVector fun _ => .returned _
  | .applyError _ _ => .withVector fun _ => .withVector fun _ => .returned _
  | .syndrome _ _ => .withVector fun _ => .returned _
  | .locate _ => .withVector fun _ => .returned _
  | .correct _ _ => .withVector fun _ => .withPosition fun _ => .returned _
  | .encode _ _ => .withVector fun _ => .returned _
  | .decode _ _ => .withVector fun _ => .returned _
  | .simulate => .withVector fun _ => .withVector fun _ => .published _

/-! ### The inputs -/

/-- No invocation changes an input (R32). -/
theorem sameInputs_of_exec {i : Instr} {s t : State} (h : exec i s = .next t) : SameInputs s t := by
  have hc := exec_concludes i s
  rw [h] at hc
  cases hc with
  | raised e => exact (sameBlock_withReply s _).1
  | returned r => exact (sameBlock_withReply s _).1
  | published run => exact sameInputs_publish_withReply s run _

/-- Settles O50: an invocation leaves every input, the convention among them, and the host's write of
the convention is an update of that field alone, which answers in every state. -/
theorem conventionChangesOnlyByTheHost : Obligations.ConventionChangesOnlyByTheHost := by
  refine ⟨fun i s t h => ?_, fun s even => ?_⟩
  · obtain ⟨-, -, hep⟩ := sameInputs_of_exec h
    exact hep
  · exact ⟨s.writeInput (.evenParity even), rfl, rfl, s.writeInput_pub _, rfl, rfl⟩

/-! ### The answer -/

/-- An integer in 0..7 is read as a position (R28). -/
theorem positionOf_ne_none {n : Int} (h0 : 0 ≤ n) (h7 : n ≤ 7) : positionOf n ≠ none := by
  obtain ⟨p, rfl⟩ := exists_errorPosition h0 h7
  simp

/-- Settles O54: of the ways an invocation concludes, all but the refusal answer a result or an error
class, and a legal position excludes the refusal. -/
theorem everyInvocationAnswers : Obligations.EveryInvocationAnswers := by
  intro i s hlegal
  have hc := exec_concludes i s
  generalize exec i s = answer at hc
  cases hc with
  | raised e => exact ⟨_, rfl, .inr ⟨e, rfl⟩⟩
  | returned r => exact ⟨_, rfl, .inl ⟨r, rfl⟩⟩
  | published run => exact ⟨_, rfl, .inl ⟨.done, rfl⟩⟩
  | @refused _ received n hn =>
    obtain ⟨h0, h7⟩ := hlegal received n rfl
    exact absurd hn (positionOf_ne_none h0 h7)

end Sys2Proof.Machine
end

section
/-! PROOFS. The wire level: a command word as its five fields, the rows of the table in terms of them,
and encode and decode as inverses of each other (R80 to R83, R87). -/

namespace Sys2Proof

open Sys2Proof.Machine

/-! ### The fields of a command word -/

/-- A command word written as its fields, highest first (R80). -/
def wordOf (op : BitVec 4) (ep : BitVec 1) (b : Field) (z : BitVec 1) (a : Field) : Cmd :=
  op ++ ep ++ b ++ z ++ a

/-- Every command word is written by its own fields. -/
theorem wordOf_extract (cmd : Cmd) :
    wordOf (cmd.extractLsb' 16 4) (cmd.extractLsb' 15 1) (cmd.extractLsb' 8 7)
      (cmd.extractLsb' 7 1) (cmd.extractLsb' 0 7) = cmd := by
  have h15 : cmd.extractLsb' 16 4 ++ cmd.extractLsb' 15 1 = cmd.extractLsb' 15 5 :=
    BitVec.extractLsb'_append_extractLsb'_eq_extractLsb' rfl
  have h8 : cmd.extractLsb' 15 5 ++ cmd.extractLsb' 8 7 = cmd.extractLsb' 8 12 :=
    BitVec.extractLsb'_append_extractLsb'_eq_extractLsb' rfl
  have h7 : cmd.extractLsb' 8 12 ++ cmd.extractLsb' 7 1 = cmd.extractLsb' 7 13 :=
    BitVec.extractLsb'_append_extractLsb'_eq_extractLsb' rfl
  have h0 : cmd.extractLsb' 7 13 ++ cmd.extractLsb' 0 7 = cmd.extractLsb' 0 20 :=
    BitVec.extractLsb'_append_extractLsb'_eq_extractLsb' rfl
  rw [wordOf, h15, h8, h7, h0]
  exact BitVec.extractLsb'_eq_self

theorem exists_wordOf (cmd : Cmd) : ∃ op ep b z a, cmd = wordOf op ep b z a :=
  ⟨_, _, _, _, _, (wordOf_extract cmd).symm⟩

theorem pack_eq_wordOf (o : Op) (ep : Bool) (b a : Field) :
    pack o ep b a = wordOf o.code (BitVec.ofBool ep) b 0 a := rfl

section fields
variable (op : BitVec 4) (ep : BitVec 1) (b : Field) (z : BitVec 1) (a : Field)

/-- The operation code of a word written by its fields. -/
@[simp] theorem extract_op_wordOf : (wordOf op ep b z a).extractLsb' 16 4 = op := by
  change (op ++ ep ++ b ++ z ++ a).extractLsb' 16 4 = op
  rw [BitVec.extractLsb'_append_eq_of_le, BitVec.extractLsb'_append_eq_of_le,
    BitVec.extractLsb'_append_eq_of_le, BitVec.extractLsb'_append_eq_of_le]
  · exact BitVec.extractLsb'_eq_self
  all_goals decide

@[simp] theorem extract_ep_wordOf : (wordOf op ep b z a).extractLsb' 15 1 = ep := by
  change (op ++ ep ++ b ++ z ++ a).extractLsb' 15 1 = ep
  rw [BitVec.extractLsb'_append_eq_of_le, BitVec.extractLsb'_append_eq_of_le,
    BitVec.extractLsb'_append_eq_of_le, BitVec.extractLsb'_append_eq_of_add_le]
  · exact BitVec.extractLsb'_eq_self
  all_goals decide

/-- The low bits of field `B`. -/
theorem extract_b_wordOf {n : Nat} (hn : n ≤ 7) :
    (wordOf op ep b z a).extractLsb' 8 n = b.extractLsb' 0 n := by
  change (op ++ ep ++ b ++ z ++ a).extractLsb' 8 n = b.extractLsb' (8 - 7 - 1) n
  rw [BitVec.extractLsb'_append_eq_of_le, BitVec.extractLsb'_append_eq_of_le,
    BitVec.extractLsb'_append_eq_of_add_le]
  all_goals omega

@[simp] theorem extract_z_wordOf : (wordOf op ep b z a).extractLsb' 7 1 = z := by
  change (op ++ ep ++ b ++ z ++ a).extractLsb' 7 1 = z
  rw [BitVec.extractLsb'_append_eq_of_le, BitVec.extractLsb'_append_eq_of_add_le]
  · exact BitVec.extractLsb'_eq_self
  all_goals decide

/-- The low bits of field `A`. -/
theorem extract_a_wordOf {n : Nat} (hn : n ≤ 7) :
    (wordOf op ep b z a).extractLsb' 0 n = a.extractLsb' 0 n := by
  change (op ++ ep ++ b ++ z ++ a).extractLsb' 0 n = a.extractLsb' 0 n
  rw [BitVec.extractLsb'_append_eq_of_add_le]
  omega

@[simp] theorem operandEp_wordOf : operandEp (wordOf op ep b z a) = ep.getLsbD 0 := by
  rw [operandEp, ← extract_ep_wordOf op ep b z a, BitVec.getLsbD_extractLsb']
  simp

end fields

/-- Words are equal only where their fields are. -/
theorem wordOf_inj {op op' : BitVec 4} {ep ep' : BitVec 1} {b b' : Field} {z z' : BitVec 1}
    {a a' : Field} (h : wordOf op ep b z a = wordOf op' ep' b' z' a') :
      op = op' ∧ ep = ep' ∧ b = b' ∧ z = z' ∧ a = a' := by
  refine ⟨?_, ?_, ?_, ?_, ?_⟩
  · simpa using congrArg (BitVec.extractLsb' 16 4) h
  · simpa using congrArg (BitVec.extractLsb' 15 1) h
  · simpa [extract_b_wordOf] using congrArg (BitVec.extractLsb' 8 7) h
  · simpa using congrArg (BitVec.extractLsb' 7 1) h
  · simpa [extract_a_wordOf] using congrArg (BitVec.extractLsb' 0 7) h

theorem wordOf_and (op op' : BitVec 4) (ep ep' : BitVec 1) (b b' : Field) (z z' : BitVec 1)
    (a a' : Field) :
    wordOf op ep b z a &&& wordOf op' ep' b' z' a' =
      wordOf (op &&& op') (ep &&& ep') (b &&& b') (z &&& z') (a &&& a') := by
  change (op ++ ep ++ b ++ z ++ a) &&& (op' ++ ep' ++ b' ++ z' ++ a') =
    (op &&& op') ++ (ep &&& ep') ++ (b &&& b') ++ (z &&& z') ++ (a &&& a')
  simp only [BitVec.and_append]

/-! ### The rows of the table -/

/-- Whether the row reads the convention bit (R81). -/
def Op.usesEp : Op → Bool
  | .parity | .syndrome | .encode | .decode => true
  | .assemble | .disassemble | .applyError | .locate | .correct | .simulate => false

/-- How many low bits of field `A` the row reads (R81). -/
def Op.widthA : Op → Nat
  | .parity | .assemble | .encode => 4
  | .disassemble | .applyError | .syndrome | .correct | .decode => 7
  | .locate => 3
  | .simulate => 0

/-- How many low bits of field `B` the row reads (R81). -/
def Op.widthB : Op → Nat
  | .assemble | .correct => 3
  | .applyError => 7
  | .parity | .disassemble | .syndrome | .locate | .encode | .decode | .simulate => 0

theorem Op.widthA_le (o : Op) : o.widthA ≤ 7 := by cases o <;> decide

theorem Op.widthB_le (o : Op) : o.widthB ≤ 7 := by cases o <;> decide

/-- The bits of a field from `n` up. -/
def highBits (n : Nat) : Field := BitVec.allOnes 7 <<< n

@[simp] theorem getLsbD_highBits (n i : Nat) :
    (highBits n).getLsbD i = (decide (i < 7) && decide (n ≤ i)) := by
  simp only [highBits, BitVec.getLsbD_shiftLeft, BitVec.getLsbD_allOnes]
  by_cases hn : n ≤ i
  · have hsub : i < 7 → i - n < 7 := by omega
    simpa [hn, Nat.not_lt.2 hn] using hsub
  · simp [hn, Nat.not_le.1 hn]

/-- A field has no bit from `n` up exactly when its low `n` bits are all of it. -/
theorem and_highBits_eq_zero_iff (f : Field) (n : Nat) :
    f &&& highBits n = 0 ↔ (f.extractLsb' 0 n).setWidth 7 = f := by
  have hbits : ∀ i, i < 7 → ((f &&& highBits n).getLsbD i = (0 : Field).getLsbD i ↔
      ((f.extractLsb' 0 n).setWidth 7).getLsbD i = f.getLsbD i) := by
    intro i hi
    simp only [BitVec.getLsbD_and, getLsbD_highBits, BitVec.getLsbD_setWidth,
      BitVec.getLsbD_extractLsb', Nat.zero_add, hi, decide_true, Bool.true_and]
    by_cases hn : n ≤ i
    · have hlt : ¬ i < n := Nat.not_lt.2 hn
      cases f.getLsbD i <;> simp [hn, hlt]
    · have hlt : i < n := Nat.not_le.1 hn
      cases f.getLsbD i <;> simp [hn, hlt]
  constructor
  · exact fun h => BitVec.eq_of_getLsbD_eq fun i hi => (hbits i hi).1 (congrArg (·.getLsbD i) h)
  · exact fun h => BitVec.eq_of_getLsbD_eq fun i hi => (hbits i hi).2 (congrArg (·.getLsbD i) h)

/-- The mask column: the operation code and every bit that must be 0. -/
theorem Op.mask_eq (o : Op) :
    o.mask = wordOf (BitVec.allOnes 4) (BitVec.ofBool (!o.usesEp)) (highBits o.widthB) 1
      (highBits o.widthA) := by
  cases o <;> decide

/-- The match column: the operation code alone. -/
theorem Op.pattern_eq (o : Op) : o.pattern = wordOf o.code 0 0 0 0 := by
  cases o <;> decide

/-- A command word matches a row when its operation code is the row's and every bit the row does not
read is 0 (R81, R82). -/
theorem Op.matches_wordOf_iff (o : Op) (op : BitVec 4) (ep : BitVec 1) (b : Field) (z : BitVec 1)
    (a : Field) :
    o.matches (wordOf op ep b z a) = true ↔
      op = o.code ∧ ep &&& BitVec.ofBool (!o.usesEp) = 0 ∧
      (b.extractLsb' 0 o.widthB).setWidth 7 = b ∧ z = 0 ∧
      (a.extractLsb' 0 o.widthA).setWidth 7 = a := by
  have hop : op &&& BitVec.allOnes 4 = op := BitVec.and_allOnes
  have hz : z &&& 1 = z := BitVec.and_allOnes
  rw [Op.matches, beq_iff_eq, o.mask_eq, o.pattern_eq, wordOf_and, hop, hz,
    ← and_highBits_eq_zero_iff, ← and_highBits_eq_zero_iff]
  constructor
  · exact wordOf_inj
  · rintro ⟨rfl, hep, hb, rfl, ha⟩
    rw [hep, hb, ha]

/-- A word that matches a row carries the row's operation code. -/
theorem Op.code_of_matches {o : Op} {cmd : Cmd} (h : o.matches cmd = true) :
    cmd.extractLsb' 16 4 = o.code := by
  rw [← wordOf_extract cmd] at h
  exact ((o.matches_wordOf_iff ..).1 h).1

theorem Op.mem_all (o : Op) : o ∈ Op.all := by cases o <;> decide

/-- Different rows have different operation codes. -/
theorem Op.code_injective : Function.Injective Op.code := by
  have hall : ∀ o ∈ Op.all, ∀ o' ∈ Op.all, o.code = o'.code → o = o' := by decide
  exact fun o o' => hall o o.mem_all o' o'.mem_all

/-- Rows exclude each other (R82). -/
theorem Op.eq_of_matches {o o' : Op} {cmd : Cmd} (h : o.matches cmd = true)
    (h' : o'.matches cmd = true) : o = o' :=
  Op.code_injective ((code_of_matches h).symm.trans (code_of_matches h'))

theorem matches_of_rowOf {cmd : Cmd} {o : Op} (h : rowOf cmd = some o) : o.matches cmd = true :=
  List.find?_some (p := fun o : Op => o.matches cmd) h

/-- The row of a command word is the one it matches. -/
theorem rowOf_eq_some_iff {cmd : Cmd} {o : Op} : rowOf cmd = some o ↔ o.matches cmd = true := by
  constructor
  · exact matches_of_rowOf
  · intro h
    cases hrow : rowOf cmd with
    | none => exact absurd h (List.find?_eq_none.1 hrow o o.mem_all)
    | some o' => rw [Op.eq_of_matches (matches_of_rowOf hrow) h]

/-- A word that matches a row decodes to that row's invocation. -/
theorem decodeCmd_of_matches {o : Op} {cmd : Cmd} (h : o.matches cmd = true) :
    decodeCmd cmd = .ok (o.instr cmd) := by
  rw [decodeCmd, rowOf_eq_some_iff.2 h]

/-- A word that decodes matches the row it is decoded by. -/
theorem exists_matches_of_decodeCmd {cmd : Cmd} {i : Instr} (h : decodeCmd cmd = .ok i) :
    ∃ o : Op, o.matches cmd = true ∧ o.instr cmd = i := by
  unfold decodeCmd at h
  split at h
  · next o hrow =>
    cases h
    exact ⟨o, rowOf_eq_some_iff.1 hrow, rfl⟩
  · cases h

/-- Settles O3: a word decodes exactly when some row matches it, each row's bits being its operation
code and the bits that must be 0; different rows have different codes. -/
theorem decodesExactlyTheTableRows : Obligations.DecodesExactlyTheTableRows := by
  intro cmd
  refine ⟨?_, fun o o' h h' => ⟨Op.eq_of_matches h h', Op.code_of_matches h⟩⟩
  change _ ↔ ∃ row ∈ Op.all.map fun o => (o.pattern, o.mask), cmd &&& row.2 = row.1
  constructor
  · rintro ⟨i, hi⟩
    obtain ⟨o, ho, -⟩ := exists_matches_of_decodeCmd hi
    exact ⟨_, List.mem_map_of_mem o.mem_all, beq_iff_eq.1 ho⟩
  · rintro ⟨row, hrow, hmatch⟩
    obtain ⟨o, -, rfl⟩ := List.mem_map.1 hrow
    exact ⟨_, decodeCmd_of_matches (beq_iff_eq.2 hmatch)⟩

/-! ### Decode, then encode -/

/-- The convention bit of a word as its row packs it: 0 where the row does not read it. -/
def Op.fieldEp (o : Op) (cmd : Cmd) : Bool := o.usesEp && operandEp cmd

/-- Field `A` of a word, reduced to the bits its row reads. -/
def Op.fieldA (o : Op) (cmd : Cmd) : Field := (cmd.extractLsb' 0 o.widthA).setWidth 7

/-- Field `B` of a word, reduced to the bits its row reads. -/
def Op.fieldB (o : Op) (cmd : Cmd) : Field := (cmd.extractLsb' 8 o.widthB).setWidth 7

/-- A convention bit that is 0 where the row does not read it is what the row packs. -/
theorem ofBool_and_getLsbD_zero {u : Bool} {ep : BitVec 1} (h : ep &&& BitVec.ofBool (!u) = 0) :
    BitVec.ofBool (u && ep.getLsbD 0) = ep := by
  revert u ep
  decide

/-- A word that matches its row is packed from what the row reads of it. -/
theorem Op.pack_of_matches {o : Op} {cmd : Cmd} (h : o.matches cmd = true) :
    pack o (o.fieldEp cmd) (o.fieldB cmd) (o.fieldA cmd) = cmd := by
  obtain ⟨op, ep, b, z, a, rfl⟩ := exists_wordOf cmd
  obtain ⟨hop, hep, hb, hz, ha⟩ := (o.matches_wordOf_iff ..).1 h
  rw [pack_eq_wordOf, Op.fieldEp, Op.fieldA, Op.fieldB, operandEp_wordOf,
    extract_a_wordOf _ _ _ _ _ o.widthA_le, extract_b_wordOf _ _ _ _ _ o.widthB_le,
    ofBool_and_getLsbD_zero hep, ha, hb, hop, hz]

/-- A vector written raw is well formed. -/
@[simp] theorem isVector_rawOf {n : Nat} (v : BitVec n) : (rawOf v).isVector n = true := by
  cases h : (rawOf v).isVector n with
  | true => rfl
  | false =>
    obtain ⟨e, he⟩ := validate_of_not_isVector h
    simp at he

/-- The field of a vector is the vector, its unused bits 0 (R72). -/
@[simp] theorem fieldOf_rawOf {n : Nat} (v : BitVec n) : fieldOf (rawOf v) = v.setWidth 7 := by
  have hbits : (rawOf v).map (fun x => x == 1) = toBools v := by
    simp [rawOf, Function.comp_def, rawBit_eq_one]
  refine BitVec.eq_of_getLsbD_eq fun i hi => ?_
  rw [fieldOf, getLsbD_ofRaw, hbits, getD_toBools, BitVec.getLsbD_setWidth]

/-- A position read from a command word is an error position. -/
theorem isPosition_operandPosition (cmd : Cmd) : isPosition (operandPosition cmd) = true := by
  have hle : ((cmd.extractLsb' 8 3).toNat : Int) ≤ 7 :=
    Int.ofNat_le.2 (Nat.le_of_lt_succ (cmd.extractLsb' 8 3).isLt)
  exact Bool.and_eq_true_iff.2 ⟨decide_eq_true (Int.natCast_nonneg _), decide_eq_true hle⟩

/-- A position is packed as the three bits it was read from (R78). -/
theorem ofNat_operandPosition (cmd : Cmd) :
    BitVec.ofNat 7 (operandPosition cmd).toNat = (cmd.extractLsb' 8 3).setWidth 7 := by
  rw [operandPosition, Int.toNat_natCast, BitVec.ofNat_toNat]

/-- Whatever a row reads from a command word is a well-formed invocation. -/
theorem Op.wellFormed_instr (o : Op) (cmd : Cmd) : (o.instr cmd).wellFormed = true := by
  cases o <;> simp [Op.instr, Instr.wellFormed, operandA, operandB, isPosition_operandPosition]

/-- The invocation a row reads from a command word packs what the row reads. -/
theorem Op.encode_instr (o : Op) (cmd : Cmd) :
    Sys2Proof.encode (o.instr cmd) = some (pack o (o.fieldEp cmd) (o.fieldB cmd) (o.fieldA cmd)) := by
  unfold Sys2Proof.encode
  rw [if_pos (o.wellFormed_instr cmd)]
  congr 1
  cases o <;>
    simp [Op.instr, Op.fieldEp, Op.usesEp, Op.fieldA, Op.widthA, Op.fieldB, Op.widthB,
      operandA, operandB, ofNat_operandPosition]

/-- Settles O2: the row a word matches reads a well-formed invocation from it, and packs what it reads
into the word, all other bits of which are 0. -/
theorem encodeOfDecodeIsIdentity : Obligations.EncodeOfDecodeIsIdentity := by
  intro cmd i h
  obtain ⟨o, ho, rfl⟩ := exists_matches_of_decodeCmd h
  exact ⟨o.wellFormed_instr cmd, by rw [o.encode_instr, Op.pack_of_matches ho]⟩

/-! ### Encode, then decode -/

/-- The command word that gives a row these operands, as wide as the row reads them. -/
def Op.wordFor (o : Op) (ep : Bool) (b : BitVec o.widthB) (a : BitVec o.widthA) : Cmd :=
  wordOf o.code (BitVec.ofBool (o.usesEp && ep)) (b.setWidth 7) 0 (a.setWidth 7)

theorem ofBool_and_ofBool_not (u ep : Bool) :
    BitVec.ofBool (u && ep) &&& BitVec.ofBool (!u) = 0 := by
  revert u ep
  decide

section wordFor
variable (o : Op) (ep : Bool) (b : BitVec o.widthB) (a : BitVec o.widthA)

theorem Op.matches_wordFor : o.matches (o.wordFor ep b a) = true := by
  refine (o.matches_wordOf_iff ..).2 ⟨rfl, ofBool_and_ofBool_not _ _, ?_, rfl, ?_⟩
  · rw [BitVec.extractLsb'_setWidth_of_le (by simpa using o.widthB_le), BitVec.extractLsb'_eq_self]
  · rw [BitVec.extractLsb'_setWidth_of_le (by simpa using o.widthA_le), BitVec.extractLsb'_eq_self]

@[simp] theorem operandEp_wordFor : operandEp (o.wordFor ep b a) = (o.usesEp && ep) := by
  simp [Op.wordFor]

/-- A row reads its field-`A` operand back. -/
@[simp] theorem extract_a_wordFor : (o.wordFor ep b a).extractLsb' 0 o.widthA = a := by
  rw [Op.wordFor, extract_a_wordOf _ _ _ _ _ o.widthA_le,
    BitVec.extractLsb'_setWidth_of_le (by simpa using o.widthA_le), BitVec.extractLsb'_eq_self]

/-- A row reads its field-`B` operand back. -/
@[simp] theorem extract_b_wordFor : (o.wordFor ep b a).extractLsb' 8 o.widthB = b := by
  rw [Op.wordFor, extract_b_wordOf _ _ _ _ _ o.widthB_le,
    BitVec.extractLsb'_setWidth_of_le (by simpa using o.widthB_le), BitVec.extractLsb'_eq_self]

theorem operandA_wordFor : operandA o.widthA (o.wordFor ep b a) = rawOf a := by
  rw [operandA, extract_a_wordFor]

theorem operandB_wordFor : operandB o.widthB (o.wordFor ep b a) = rawOf b := by
  rw [operandB, extract_b_wordFor]

end wordFor

/-- CORRECT reads its position back (R78). -/
theorem operandPosition_wordFor (p : ErrorPosition) (r : Codeword) :
    operandPosition (Op.wordFor .correct false (BitVec.ofNat 3 p.val) r) = p.val := by
  have hb : (Op.wordFor .correct false (BitVec.ofNat 3 p.val) r).extractLsb' 8 3 =
      BitVec.ofNat 3 p.val := extract_b_wordFor .correct false _ r
  rw [operandPosition, hb, BitVec.toNat_ofNat, Nat.mod_eq_of_lt p.isLt]

/-- The check of a position passes the error positions alone (R28). -/
theorem exists_errorPosition_of_isPosition {n : Int} (h : isPosition n = true) :
    ∃ p : ErrorPosition, n = p.val := by
  obtain ⟨h0, h7⟩ := Bool.and_eq_true_iff.1 h
  exact exists_errorPosition (of_decide_eq_true h0) (of_decide_eq_true h7)

/-- Some command word decodes to each well-formed invocation: the one that gives its row its
operands. -/
theorem exists_decodeCmd_of_wellFormed {i : Instr} (h : i.wellFormed = true) :
    ∃ cmd, decodeCmd cmd = .ok i := by
  suffices hrow : ∃ (o : Op) (ep : Bool) (b : BitVec o.widthB) (a : BitVec o.widthA),
      o.instr (o.wordFor ep b a) = i by
    obtain ⟨o, ep, b, a, rfl⟩ := hrow
    exact ⟨_, decodeCmd_of_matches (o.matches_wordFor ep b a)⟩
  cases i with
  | parity data ep =>
    obtain ⟨d, rfl⟩ := exists_rawOf_of_isVector h
    exact ⟨.parity, ep, 0, d, congrArg₂ Instr.parity
      (operandA_wordFor .parity ep 0 d) (operandEp_wordFor .parity ep 0 d)⟩
  | assemble data parity =>
    obtain ⟨hd, hp⟩ := Bool.and_eq_true_iff.1 h
    obtain ⟨d, rfl⟩ := exists_rawOf_of_isVector hd
    obtain ⟨p, rfl⟩ := exists_rawOf_of_isVector hp
    exact ⟨.assemble, false, p, d, congrArg₂ Instr.assemble
      (operandA_wordFor .assemble false p d) (operandB_wordFor .assemble false p d)⟩
  | disassemble codeword =>
    obtain ⟨c, rfl⟩ := exists_rawOf_of_isVector h
    exact ⟨.disassemble, false, 0, c, congrArg Instr.disassemble
      (operandA_wordFor .disassemble false 0 c)⟩
  | applyError codeword mask =>
    obtain ⟨hc, hm⟩ := Bool.and_eq_true_iff.1 h
    obtain ⟨c, rfl⟩ := exists_rawOf_of_isVector hc
    obtain ⟨m, rfl⟩ := exists_rawOf_of_isVector hm
    exact ⟨.applyError, false, m, c, congrArg₂ Instr.applyError
      (operandA_wordFor .applyError false m c) (operandB_wordFor .applyError false m c)⟩
  | syndrome received ep =>
    obtain ⟨r, rfl⟩ := exists_rawOf_of_isVector h
    exact ⟨.syndrome, ep, 0, r, congrArg₂ Instr.syndrome
      (operandA_wordFor .syndrome ep 0 r) (operandEp_wordFor .syndrome ep 0 r)⟩
  | locate syndrome =>
    obtain ⟨y, rfl⟩ := exists_rawOf_of_isVector h
    exact ⟨.locate, false, 0, y, congrArg Instr.locate (operandA_wordFor .locate false 0 y)⟩
  | correct received position =>
    obtain ⟨hr, hn⟩ := Bool.and_eq_true_iff.1 h
    obtain ⟨r, rfl⟩ := exists_rawOf_of_isVector hr
    obtain ⟨p, rfl⟩ := exists_errorPosition_of_isPosition hn
    exact ⟨.correct, false, BitVec.ofNat 3 p.val, r, congrArg₂ Instr.correct
      (operandA_wordFor .correct false _ r) (operandPosition_wordFor p r)⟩
  | encode data ep =>
    obtain ⟨d, rfl⟩ := exists_rawOf_of_isVector h
    exact ⟨.encode, ep, 0, d, congrArg₂ Instr.encode
      (operandA_wordFor .encode ep 0 d) (operandEp_wordFor .encode ep 0 d)⟩
  | decode received ep =>
    obtain ⟨r, rfl⟩ := exists_rawOf_of_isVector h
    exact ⟨.decode, ep, 0, r, congrArg₂ Instr.decode
      (operandA_wordFor .decode ep 0 r) (operandEp_wordFor .decode ep 0 r)⟩
  | simulate => exact ⟨.simulate, false, 0, 0, rfl⟩

/-- Settles O1: some word decodes to the invocation, and a decoded word is what its invocation
encodes to. -/
theorem decodeOfEncodeIsIdentity : Obligations.DecodeOfEncodeIsIdentity := by
  intro i h
  obtain ⟨cmd, hcmd⟩ := exists_decodeCmd_of_wellFormed h
  obtain ⟨-, henc⟩ := encodeOfDecodeIsIdentity cmd i hcmd
  exact ⟨cmd, henc, hcmd⟩

/-! ### The worked encodings -/

/-- Settles O4: the decoder evaluates to the invocations R92 lists and, on the reserved words of T8, to
the reason each is reserved for. -/
theorem workedCommandWordsDecode : Obligations.WorkedCommandWordsDecode := by
  refine ⟨rfl, rfl, rfl, rfl, rfl, rfl, rfl, rfl, rfl, rfl, ?_, ?_⟩
  · simp only [List.forall_mem_cons]
    exact ⟨rfl, rfl, rfl, List.forall_mem_nil _⟩
  · simp only [List.forall_mem_cons]
    exact ⟨rfl, rfl, rfl, rfl, rfl, rfl, rfl, List.forall_mem_nil _⟩

end Sys2Proof
end

section
/-! PROOFS. Errors and frames of the invocations: an error reported is the first one, it is the whole
result, and what each invocation may change (R32, R60, R154, R173, R174, R176). -/

namespace Sys2Proof.Machine

open Sys2Proof.Safety

/-! ### An error reported is the first one -/

/-- An answer reports no error but that of the first malformed operand among these. -/
def ReportsFirst (ops : List (Nat × Raw)) (answer : Answer) : Prop :=
  ∀ t e, answer = .next t → t.reply = .raised e → FirstError e ops

/-- An answer that hands back a result reports no error. -/
theorem ReportsFirst.giveResult {ops : List (Nat × Raw)} (s : State) (r : Result) :
    ReportsFirst ops (.next (s.giveResult r)) := by
  rintro t e ⟨⟩ hraised
  cases hraised

theorem ReportsFirst.refused {ops : List (Nat × Raw)} (reason : Refusal) :
    ReportsFirst ops (.refused reason) := by
  rintro t e ⟨⟩

/-- The check of one operand fails with its own first error, or passes a well-formed operand. -/
theorem validate_spec (n : Nat) (raw : Raw) :
    (∃ e, validate n raw = .error e ∧ ∀ rest, FirstError e ((n, raw) :: rest)) ∨
    (validate n raw = .ok (ofRaw n raw) ∧ RightLength (n, raw) ∧ OnlyBits (n, raw)) := by
  by_cases hl : RightLength (n, raw)
  · by_cases hb : OnlyBits (n, raw)
    · exact .inr ⟨validate_of_onlyBits hl hb, hl, hb⟩
    · exact .inl ⟨_, validate_of_not_onlyBits hl hb, fun _ => .inr (.inl ⟨hl, hb, rfl⟩)⟩
  · exact .inl ⟨_, validate_of_not_rightLength hl, fun _ => .inl ⟨hl, rfl⟩⟩

/-- An operand checked in front of others reports its own error or lets theirs be reported. -/
theorem ReportsFirst.withVector {n : Nat} {raw : Raw} {rest : List (Nat × Raw)} {s : State}
    {k : BitVec n → Answer} (h : ∀ v, ReportsFirst rest (k v)) :
    ReportsFirst ((n, raw) :: rest) (withVector n raw s k) := by
  obtain ⟨e, hv, hfirst⟩ | ⟨hv, hl, hb⟩ := validate_spec n raw
  · rw [withVector_error hv]
    rintro t e' ⟨⟩ hraised
    obtain rfl : e = e' := Reply.raised.inj hraised
    exact hfirst rest
  · rw [withVector_ok hv]
    exact fun t e ht hraised => .inr (.inr ⟨hl, hb, h _ t e ht hraised⟩)

/-- The position adds no error, only the refusal. -/
theorem ReportsFirst.withPosition {ops : List (Nat × Raw)} {n : Int} {k : ErrorPosition → Answer}
    (h : ∀ p, ReportsFirst ops (k p)) : ReportsFirst ops (withPosition n k) := by
  obtain ⟨p, -, hp⟩ | ⟨-, hr⟩ := withPosition_cases n k
  · rw [hp]
    exact h p
  · rw [hr]
    exact .refused _

/-- Every operation reports no error but that of the first malformed operand it checks. -/
theorem exec_reportsFirst (i : Instr) (s : State) :
    ReportsFirst (checkedOperands s i) (exec i s) :=
  match i with
  | .parity _ _ => .withVector fun _ => .giveResult s _
  | .assemble _ _ => .withVector fun _ => .withVector fun _ => .giveResult s _
  | .disassemble _ => .withVector fun _ => .giveResult s _
  | .applyError _ _ => .withVector fun _ => .withVector fun _ => .giveResult s _
  | .syndrome _ _ => .withVector fun _ => .giveResult s _
  | .locate _ => .withVector fun _ => .giveResult s _
  | .correct _ _ => .withVector fun _ => .withPosition fun _ => .giveResult s _
  | .encode _ _ => .withVector fun _ => .giveResult s _
  | .decode _ _ => .withVector fun _ => .giveResult s _
  | .simulate => .withVector fun _ => .withVector fun _ => .giveResult _ _

/-- Settles O45: every operation raises the error of its first malformed operand, and an error it
reports is that of its first malformed operand. -/
theorem firstFailureIsTheOneReported : Obligations.FirstFailureIsTheOneReported :=
  fun i s => ⟨fun _ => raises_of_firstError,
    fun hnone t e ht hraised => hnone e (exec_reportsFirst i s t e ht hraised)⟩

/-! ### An error is the whole result -/

/-- No invocation reads the reply of an earlier one. -/
@[simp] theorem exec_withReply (i : Instr) (s : State) (r : Reply) :
    exec i (s.withReply r) = exec i s := by
  cases i <;> rfl

/-- Settles O46: of the ways an invocation concludes, only raising leaves an error in the reply, and it
changes the reply alone, which no later invocation reads. -/
theorem anErrorHasNoOtherEffect : Obligations.AnErrorHasNoOtherEffect := by
  intro i s t e h hraised
  have hc := exec_concludes i s
  rw [h] at hc
  cases hc with
  | raised e' =>
    obtain rfl : e' = e := Reply.raised.inj hraised
    exact ⟨rfl, sameBlock_withReply s _, fun j => exec_withReply j s _⟩
  | returned r => cases hraised
  | published run => cases hraised

/-- Settles O47: of the ways an invocation concludes, those with a next state leave a result or an
error class in the reply. -/
theorem statusOrdinals : Obligations.StatusOrdinals := by
  intro i s t h
  refine ⟨fun r hr => by rw [hr]; rfl, fun hr => by rw [hr]; rfl, fun hr => by rw [hr]; rfl, ?_⟩
  have hc := exec_concludes i s
  rw [h] at hc
  cases hc with
  | raised e => exact ⟨e.ordinal, rfl, by cases e <;> decide⟩
  | returned r => exact ⟨0, rfl, by decide⟩
  | published run => exact ⟨0, rfl, by decide⟩

/-! ### The component operations -/

/-- A meaning that replies without reading or writing the state: one reply, or one refusal, in every
state. -/
def Stateless (f : State → Answer) : Prop :=
  (∃ r, ∀ s, f s = .next (s.withReply r)) ∨ ∃ reason, ∀ s, f s = .refused reason

theorem Stateless.giveResult (r : Result) : Stateless fun s => .next (s.giveResult r) :=
  .inl ⟨.returned r, fun _ => rfl⟩

theorem Stateless.withVector {n : Nat} {raw : Raw} {k : BitVec n → State → Answer}
    (h : ∀ v, Stateless (k v)) : Stateless fun s => withVector n raw s fun v => k v s := by
  obtain ⟨e, hv, -⟩ | ⟨hv, -⟩ := validate_spec n raw
  · exact .inl ⟨.raised e, fun s => withVector_error hv s _⟩
  · simpa only [withVector_ok hv] using h _

theorem Stateless.withPosition {n : Int} {k : ErrorPosition → State → Answer}
    (h : ∀ p, Stateless (k p)) : Stateless fun s => withPosition n fun p => k p s := by
  unfold Machine.withPosition
  cases positionOf n with
  | some p => exact h p
  | none => exact .inr ⟨_, fun _ => rfl⟩

/-- The nine component operations neither read nor write the state (R32). -/
theorem exec_stateless {i : Instr} (h : i ≠ .simulate) : Stateless (exec i) :=
  match i with
  | .parity _ _ => .withVector fun _ => .giveResult _
  | .assemble _ _ => .withVector fun _ => .withVector fun _ => .giveResult _
  | .disassemble _ => .withVector fun _ => .giveResult _
  | .applyError _ _ => .withVector fun _ => .withVector fun _ => .giveResult _
  | .syndrome _ _ => .withVector fun _ => .giveResult _
  | .locate _ => .withVector fun _ => .giveResult _
  | .correct _ _ => .withVector fun _ => .withPosition fun _ => .giveResult _
  | .encode _ _ => .withVector fun _ => .giveResult _
  | .decode _ _ => .withVector fun _ => .giveResult _
  | .simulate => absurd rfl h

/-- Settles O48: a component operation hands one reply back in every state and leaves the rest. -/
theorem componentOperationsTouchNoState : Obligations.ComponentOperationsTouchNoState := by
  intro i s s' t hi ht
  obtain ⟨r, hr⟩ | ⟨reason, hr⟩ := exec_stateless hi
  · obtain rfl : s.withReply r = t := by simpa [hr] using ht
    exact ⟨rfl, hr s'⟩
  · simp [hr] at ht

/-! ### SIMULATE -/

/-- SIMULATE with a malformed input raises an error and changes nothing else (R154). -/
theorem execSimulate_of_malformed {s : State}
    (h : (s.inputWord.isVector 4 && s.errorMask.isVector 7) = false) :
    ∃ e, execSimulate s = .next (s.raiseError e) :=
  withVector_withVector_of_not_isVector h s _

/-- Settles O38: a malformed input fails its check, which changes the reply alone, and no invocation
reads the reply. -/
theorem failedSimulatePublishesNothing : Obligations.FailedSimulatePublishesNothing := by
  intro s h
  obtain ⟨e, he⟩ := execSimulate_of_malformed h
  exact ⟨e, he, fun i => exec_withReply i s (.raised e)⟩

/-- Settles O49: well-formed inputs are two vectors, whose run is published; a malformed one fails its
check. -/
theorem simulateWritesOnlyTheStore : Obligations.SimulateWritesOnlyTheStore := by
  intro s
  cases hwf : s.inputsWellFormed with
  | true =>
    obtain ⟨d, m, hd, hm⟩ := inputsWellFormed_cases hwf
    exact ⟨_, execSimulate_rawOf s d m hd hm, sameInputs_publish_withReply s _ _, rfl,
      .inl ⟨d, m, hd, hm, rfl, rfl⟩⟩
  | false =>
    obtain ⟨e, he⟩ := execSimulate_of_malformed hwf
    exact ⟨_, he, (sameBlock_withReply s _).1, rfl, .inr ⟨hwf, e, rfl, rfl⟩⟩

/-! ### CORRECT out of range, and DECODE -/

/-- An integer outside 0..7 is no position (R28). -/
theorem positionOf_eq_none {n : Int} (h : n < 0 ∨ 7 < n) : positionOf n = none := by
  unfold positionOf
  split
  · next hlt => exact if_neg (by omega)
  · rfl

/-- Settles O28: the word is checked first, and the position of a well-formed word is refused where it
is none. -/
theorem correctRefusesAPositionOutOfRange : Obligations.CorrectRefusesAPositionOutOfRange := by
  refine ⟨fun r n s hn => ?_, fun raw n s h _ => withVector_of_not_isVector h s _⟩
  change execCorrect (rawOf r) n s = _
  rw [execCorrect, withVector_rawOf, withPosition, positionOf_eq_none hn]

/-- DECODE of a 7-bit word hands back the corrected word and its position, and changes nothing else. -/
theorem gives_decode (r : Codeword) (ep : Bool) (s : State) :
    Gives (.decode (rawOf r) ep) s (.decoded (decodeReceived r ep) (decodePosition r ep)) :=
  execDecode_rawOf r ep s

/-- Settles O36: DECODE of a 7-bit word answers what CORRECT answers at the position LOCATE answers for
what SYNDROME answers; a malformed word fails its check. -/
theorem decodeIsSyndromeLocateCorrect : Obligations.DecodeIsSyndromeLocateCorrect :=
  ⟨fun r ep s => ⟨computeSyndrome r ep, decodePosition r ep, decodeReceived r ep,
      gives_syndrome r ep s, gives_locate _ s, gives_correct r _ s, gives_decode r ep s⟩,
    fun _ _ s h => withVector_of_not_isVector h s _⟩

end Sys2Proof.Machine
end

section
/-! PROOFS. One step: what each move of the host does, everything a step can do said once, and the
rules and invariants of the whole machine that follow (R30 to R32, R39, R58, R60, R70, R86, R201). -/

namespace Sys2Proof.Machine

open Sys2Proof.Safety

/-! ### The move a step makes -/

/-- Settles O7: a step makes the pending move, and a reserved command word is refused. -/
theorem stepRefusesAReservedCommand : Obligations.StepRefusesAReservedCommand := by
  intro s cmd rest e hs hcmd
  rw [step_cons hs]
  exact runCommand_error hcmd _

/-- An operation that reads no malformed input has a wire-level form. -/
theorem hasWireForm_of_wellFormedInputs {i : Instr} {s : State}
    (h : i = .simulate → s.inputWord.isVector 4 = true ∧ s.errorMask.isVector 7 = true) :
    hasWireForm i s = true := by
  by_cases hi : i = .simulate
  · subst hi
    obtain ⟨hw, hm⟩ := h rfl
    exact Bool.and_eq_true_iff.2 ⟨hw, hm⟩
  · exact hasWireForm_of_ne hi s

theorem runCommand_of_malformed {cmd : Cmd} {s : State} (h : decodeCmd cmd = .ok .simulate)
    (hs : s.inputsWellFormed = false) : runCommand cmd s = .refused .malformedInputOnWire := by
  simp [runCommand, h, hs]

/-- Settles O6: a step makes the pending move on the state without it; whether a command word runs
turns on its wire-level form, which SIMULATE alone can lack. -/
theorem stepRunsTheIssuedInvocation : Obligations.StepRunsTheIssuedInvocation := by
  refine ⟨fun s cmd rest i hs hcmd hwf => ?_, fun s cmd rest hs hcmd hbad => ?_,
    fun s i rest hs => step_cons hs⟩
  · rw [step_cons hs]
    exact runCommand_ok hcmd (hasWireForm_of_wellFormedInputs (s := s.withScript rest) hwf)
  · rw [step_cons hs]
    exact runCommand_of_malformed (s := s.withScript rest) hcmd hbad

/-- A table word that decodes carries a command word that does. -/
theorem exists_cmd_of_decodeTableWord {nbits w : Nat} {i : Instr}
    (h : decodeTableWord nbits w = some i) :
    ∃ cmd, tableMove nbits w = .command cmd ∧ decodeCmd cmd = .ok i := by
  obtain ⟨cmd, hcmd, hi⟩ := Option.bind_eq_some_iff.1 h
  refine ⟨cmd, by rw [tableMove, hcmd, Option.getD_some], ?_⟩
  cases hdec : decodeCmd cmd with
  | error e => simp [hdec, Except.toOption] at hi
  | ok j => simpa [hdec, Except.toOption] using hi

/-- Settles O8: the issued word's move is the pending one, and a step makes it on the state it was
issued in. -/
theorem stepRunsTheFetchWord : Obligations.StepRunsTheFetchWord := by
  intro s nbits w i h hwf
  obtain ⟨cmd, hmove, hcmd⟩ := exists_cmd_of_decodeTableWord h
  have hscript : (s.withFetchWord nbits w).script = .command cmd :: s.script :=
    congrArg (· :: s.script) hmove
  rw [step_cons hscript]
  exact runCommand_ok (s := s) hcmd (hasWireForm_of_wellFormedInputs hwf)

/-- With nothing pending a step changes nothing (log 5). -/
theorem step_nil {s : State} (h : s.script = []) : step s = .next s := by
  simp [step, runNext, h]

/-- Settles O9: a step makes the pending write, an update of one input and of the reply. -/
theorem stepMakesHostWritesOnly : Obligations.StepMakesHostWritesOnly :=
  ⟨fun _ _ _ hs => step_cons hs, fun _ _ _ hs => step_cons hs, fun _ _ _ hs => step_cons hs,
    fun _ hs => step_nil hs⟩

/-! ### Host reads -/

theorem readEntry_of_none {k : PubKey} {s : State} (h : s.pub.read k = none) :
    readEntry k s = .refused (.absentEntry k) := by
  simp [readEntry, h]

/-- A read by the index of a key is the read of that key (R56). -/
theorem readIndexed_of_ofIndex {i : BitVec 3} {k : PubKey} (h : PubKey.ofIndex i = some k)
    (s : State) : readIndexed i s = readEntry k s := by
  simp [readIndexed, h]

theorem readIndexed_of_noKey {i : BitVec 3} (h : PubKey.ofIndex i = none) (s : State) :
    readIndexed i s = .refused (.noSuchKey i) := by
  simp [readIndexed, h]

/-- A step with a read pending, by name or by the key's index, reads the entry of that key. -/
theorem readsBack_read {k : PubKey} {i : BitVec 3} (hi : PubKey.ofIndex i = some k) :
    ReadsBack k i fun p => p.read k := by
  intro s rest hs
  have hstep : step s = readEntry k (s.withScript rest) := by
    obtain hname | hindex := hs
    · exact step_cons hname
    · exact (step_cons hindex).trans (readIndexed_of_ofIndex hi _)
  rw [hstep]
  exact ⟨fun v hv => readEntry_of_some (s := s.withScript rest) hv,
    fun hnone => readEntry_of_none (s := s.withScript rest) hnone⟩

/-- Settles O10: each index names its key, 6 and 7 none, and a read of a key answers its entry. -/
theorem stepReadsAPublishedEntry : Obligations.StepReadsAPublishedEntry := by
  refine ⟨readsBack_read (k := .data) rfl, readsBack_read (k := .parity) rfl,
    readsBack_read (k := .codeword) rfl, readsBack_read (k := .receivedCodeword) rfl,
    readsBack_read (k := .syndrome) rfl, readsBack_read (k := .correctedData) rfl,
    fun s k rest hs hk => ?_⟩
  rw [step_cons hs]
  have hkey : PubKey.ofIndex k = none := by
    obtain rfl | rfl := hk
    · rfl
    · rfl
  exact readIndexed_of_noKey hkey _

/-! ### Everything a step can do -/

/-- Everything an invocation with a next state can do: change the reply alone, or, as SIMULATE, publish
the run of one snapshot of the inputs and hand back success. -/
theorem exec_next_cases {i : Instr} {s t : State} (h : exec i s = .next t) :
    (∃ r, t = s.withReply r) ∨
    (i = .simulate ∧ ∃ d m,
      t = (s.publish (simulateRun d m s.evenParity)).withReply (.returned .done)) := by
  by_cases hi : i = .simulate
  · subst hi
    obtain ⟨e, he⟩ | ⟨d, m, -, -, hrun⟩ := execSimulate_cases s
    · exact .inl ⟨_, Host.Outcome.next.inj (h.symm.trans he)⟩
    · exact .inr ⟨rfl, d, m, Host.Outcome.next.inj (h.symm.trans hrun)⟩
  · exact .inl ⟨_, (componentOperationsTouchNoState i s s t hi h).1⟩

/-- SIMULATE has one command word (D5). -/
theorem eq_of_decodeCmd_simulate {cmd : Cmd} (h : decodeCmd cmd = .ok .simulate) :
    cmd = 0xA0000 := by
  obtain ⟨-, henc⟩ := encodeOfDecodeIsIdentity cmd .simulate h
  exact (Option.some.inj henc).symm

/-- The moves that run SIMULATE, by call or by its command word. -/
def RunsSimulate (m : HostMove) : Prop := m = .call .simulate ∨ m = .command 0xA0000

/-- What a host move may make of the state: hand something back; publish a run, where it runs SIMULATE;
write an input; reset. -/
inductive Makes : HostMove → State → State → Prop where
  | replied {m : HostMove} {s : State} (r : Reply) : Makes m s (s.withReply r)
  | published {m : HostMove} {s : State} (hm : RunsSimulate m) (d : DataWord) (mask : ErrorMask) :
      Makes m s ((s.publish (simulateRun d mask s.evenParity)).withReply (.returned .done))
  | wrote {s : State} (w : InputWrite) : Makes (.write w) s (s.writeInput w)
  | reset {s : State} : Makes .reset s (resetBlock s)

/-- An invocation makes a reply or publishes a run, whichever move issues it. -/
theorem makes_of_exec {m : HostMove} {i : Instr} {s t : State} (hm : i = .simulate → RunsSimulate m)
    (h : exec i s = .next t) : Makes m s t := by
  obtain ⟨r, rfl⟩ | ⟨hi, d, mask, rfl⟩ := exec_next_cases h
  · exact .replied r
  · exact .published (hm hi) d mask

/-- A host read makes a reply. -/
theorem makes_of_readEntry {m : HostMove} {k : PubKey} {s t : State} (h : readEntry k s = .next t) :
    Makes m s t := by
  obtain ⟨v, -, hs⟩ | ⟨-, hs⟩ := readEntry_cases k s
  · obtain rfl : s.withReply (.entry v) = t := by simpa [hs] using h
    exact .replied _
  · simp [hs] at h

/-- Every move with a next state makes what its kind may. -/
theorem makes_of_runMove {m : HostMove} {s t : State} (h : runMove m s = .next t) : Makes m s t := by
  cases m with
  | command cmd =>
    change runCommand cmd s = .next t at h
    obtain ⟨i, hcmd, -, hrun⟩ | ⟨-, -, hrun⟩ | ⟨e, -, hrun⟩ := runCommand_cases cmd s
    · exact makes_of_exec (fun hi => .inr (congrArg _ (eq_of_decodeCmd_simulate (hi ▸ hcmd))))
        (hrun.symm.trans h)
    · simp [hrun] at h
    · simp [hrun] at h
  | call i => exact makes_of_exec (fun hi => .inl (congrArg _ hi)) h
  | write w =>
    cases h
    exact .wrote w
  | readName k => exact makes_of_readEntry h
  | readIndex i =>
    change readIndexed i s = .next t at h
    obtain ⟨k, hk⟩ := readIndexed_eq_readEntry_of_next h
    exact makes_of_readEntry (hk ▸ h)
  | reset =>
    cases h
    exact .reset

/-- Everything a step can do: nothing, with nothing pending; or what the pending move makes of the
state without it. -/
theorem step_cases {s t : State} (h : step s = .next t) :
    (s.script = [] ∧ t = s) ∨
    ∃ m rest, s.script = m :: rest ∧ Makes m (s.withScript rest) t := by
  cases hs : s.script with
  | nil => exact .inl ⟨rfl, Host.Outcome.next.inj (h.symm.trans (step_nil hs))⟩
  | cons m rest => exact .inr ⟨m, rest, rfl, makes_of_runMove ((step_cons hs).symm.trans h)⟩

/-! ### The store -/

/-- Settles O51: of what a move makes, only a published run and a reset touch the store. -/
theorem onlySimulateOrResetChangesTheStore : Obligations.OnlySimulateOrResetChangesTheStore := by
  intro s t h hpub
  obtain ⟨-, rfl⟩ | ⟨m, rest, hs, hmakes⟩ := step_cases h
  · exact absurd rfl hpub
  · refine ⟨m, rest, hs, ?_⟩
    cases hmakes with
    | replied r => exact absurd rfl hpub
    | published hm d mask => exact hm.imp_right .inl
    | wrote w => exact absurd (State.writeInput_pub _ w) hpub
    | reset => exact .inr (.inr rfl)

/-- Settles O56: what touches the store leaves the values of one run, or nothing. -/
theorem stepKeepsTheStoreCoherent : Obligations.StepKeepsTheStoreCoherent := by
  intro s t hinv h
  obtain ⟨-, rfl⟩ | ⟨m, rest, -, hmakes⟩ := step_cases h
  · exact hinv
  · cases hmakes with
    | replied r => exact hinv
    | published hm d mask => exact .inr ⟨d, mask, s.evenParity, rfl⟩
    | wrote w =>
      rw [Invariant, State.writeInput_pub]
      exact hinv
    | reset => exact .inl rfl

/-- A run's values leave no entry absent. -/
theorem isSome_read_published (run : Run) (k : PubKey) : (run.published.read k).isSome = true := by
  cases k <;> rfl

/-- Settles O58: of what touches the store, a run leaves every entry present. -/
theorem presentEntriesStayPresent : Obligations.PresentEntriesStayPresent := by
  intro s t k h hreset hsome
  obtain ⟨-, rfl⟩ | ⟨m, rest, hs, hmakes⟩ := step_cases h
  · exact hsome
  · cases hmakes with
    | replied r => exact hsome
    | published hm d mask => exact isSome_read_published _ k
    | wrote w =>
      rw [State.writeInput_pub]
      exact hsome
    | reset => exact absurd (congrArg List.head? hs) hreset

/-- The store after reset holds no entry. -/
theorem read_absent (k : PubKey) : Published.absent.read k = none := by
  cases k <;> rfl

/-- Settles O57: the store after reset is the absent one, whatever the inputs, and so is the store after
a reset move, which keeps the inputs. -/
theorem resetLeavesTheStoreAbsent : Obligations.ResetLeavesTheStoreAbsent :=
  ⟨fun _ _ _ k => ⟨read_absent k, .inl rfl⟩, .inl rfl,
    fun _ _ hs => ⟨_, step_cons hs, ⟨rfl, rfl, rfl⟩, rfl, rfl⟩⟩

/-! ### The inputs -/

/-- Settles O52: of what a move makes, only a write touches an input, the one it names. -/
theorem onlyHostWritesChangeAnInput : Obligations.OnlyHostWritesChangeAnInput := by
  intro s t h
  obtain ⟨-, rfl⟩ | ⟨m, rest, hs, hmakes⟩ := step_cases h
  · exact ⟨(absurd rfl ·), (absurd rfl ·), (absurd rfl ·)⟩
  · cases hmakes with
    | replied r => exact ⟨(absurd rfl ·), (absurd rfl ·), (absurd rfl ·)⟩
    | published hm d mask => exact ⟨(absurd rfl ·), (absurd rfl ·), (absurd rfl ·)⟩
    | reset => exact ⟨(absurd rfl ·), (absurd rfl ·), (absurd rfl ·)⟩
    | wrote w =>
      cases w with
      | inputWord raw => exact ⟨fun _ => ⟨rest, hs⟩, (absurd rfl ·), (absurd rfl ·)⟩
      | errorMask raw => exact ⟨(absurd rfl ·), fun _ => ⟨rest, hs⟩, (absurd rfl ·)⟩
      | evenParity even => exact ⟨(absurd rfl ·), (absurd rfl ·), fun _ => ⟨rest, hs⟩⟩

/-! ### The wire level never raises an error -/

theorem isVector_iff (n : Nat) (raw : Raw) :
    raw.isVector n = true ↔ RightLength (n, raw) ∧ OnlyBits (n, raw) := by
  simp [Raw.isVector, Raw.isBit, RightLength, OnlyBits]

/-- Well-formed operands have no first error. -/
theorem not_firstError_of_isVector {ops : List (Nat × Raw)}
    (h : ∀ o ∈ ops, o.2.isVector o.1 = true) (e : ErrorClass) : ¬ FirstError e ops := by
  induction ops with
  | nil => exact id
  | cons o rest ih =>
    obtain ⟨ho, hrest⟩ := List.forall_mem_cons.1 h
    obtain ⟨hl, hb⟩ := (isVector_iff _ _).1 ho
    rintro (⟨hl', -⟩ | ⟨-, hb', -⟩ | ⟨-, -, hfirst⟩)
    · exact hl' hl
    · exact hb' hb
    · exact ih hrest hfirst

/-- A well-formed invocation with a wire-level form checks well-formed operands alone. -/
theorem isVector_checkedOperands {i : Instr} {s : State} (hi : i.wellFormed = true)
    (hs : hasWireForm i s = true) : ∀ o ∈ checkedOperands s i, o.2.isVector o.1 = true := by
  cases i with
  | simulate => simpa [checkedOperands, State.inputsWellFormed] using hs
  | _ => simp_all [checkedOperands, Instr.wellFormed]

/-- A well-formed invocation has a legal position, where it has one. -/
theorem legalPosition_of_wellFormed {i : Instr} (h : i.wellFormed = true) : LegalPosition i := by
  rintro r n rfl
  obtain ⟨p, rfl⟩ := exists_errorPosition_of_isPosition (Bool.and_eq_true_iff.1 h).2
  omega

/-- A decoded invocation with a wire-level form answers with a result. -/
theorem exec_returns_of_decodeCmd {cmd : Cmd} {i : Instr} {s : State} (h : decodeCmd cmd = .ok i)
    (hs : hasWireForm i s = true) : ∃ t r, exec i s = .next t ∧ t.reply = .returned r := by
  obtain ⟨hi, -⟩ := encodeOfDecodeIsIdentity cmd i h
  obtain ⟨t, ht, ⟨r, hr⟩ | ⟨e, he⟩⟩ := everyInvocationAnswers i s (legalPosition_of_wellFormed hi)
  · exact ⟨t, r, ht, hr⟩
  · exact absurd (exec_reportsFirst i s t e ht he)
      (not_firstError_of_isVector (isVector_checkedOperands hi hs) e)

/-- Settles O60: a command word that answers runs a decoded invocation with a wire-level form, whose
operands are all well formed, so no error is reported. -/
theorem commandWordNeverRaisesAnError : Obligations.CommandWordNeverRaisesAnError := by
  intro cmd s t h
  change runCommand cmd s = .next t at h
  obtain ⟨i, hcmd, hform, hrun⟩ | ⟨-, -, hrun⟩ | ⟨e, -, hrun⟩ := runCommand_cases cmd s
  · obtain ⟨t', r, ht', hr⟩ := exec_returns_of_decodeCmd hcmd hform
    obtain rfl : t' = t := Host.Outcome.next.inj (ht'.symm.trans (hrun.symm.trans h))
    exact ⟨by rw [hr]; rfl, r, hr⟩
  · simp [hrun] at h
  · simp [hrun] at h

/-- Issuing a command word hands back what the invocation it decodes to hands back. -/
theorem runMove_command_of_gives {cmd : Cmd} {i : Instr} {s : State} {r : Result}
    (hcmd : decodeCmd cmd = .ok i) (hi : i ≠ .simulate) (hr : Gives i s r) :
    ∃ t, runMove (.command cmd) s = .next t ∧ SameBlock s t ∧ t.reply.status = some 0 ∧
      t.reply.fields = some (r.ra, r.rb) :=
  ⟨s.withReply (.returned r), (runCommand_ok hcmd (hasWireForm_of_ne hi s)).trans hr,
    sameBlock_withReply s _, rfl, rfl⟩

/-- Settles O5: each worked word decodes to a component operation, whose result is the one R92 lists in
every state. -/
theorem workedCommandWordsGiveTheirResultFields :
    Obligations.WorkedCommandWordsGiveTheirResultFields := by
  obtain ⟨hparity, hassemble, hdisassemble, happlyError, hsyndrome, hlocate, hcorrect, hencode,
    hdecode, -⟩ := workedCommandWordsDecode
  have hmismatch : decodeCmd 0x9002D = .ok (.decode [1, 0, 1, 1, 0, 1, 0] false) := rfl
  unfold Obligations.WorkedCommandWordsGiveTheirResultFields
  simp only [List.forall_mem_cons]
  exact ⟨fun s => runMove_command_of_gives (r := .parity 5) hparity nofun rfl,
    fun s => runMove_command_of_gives (r := .codeword 0x2D) hassemble nofun rfl,
    fun s => runMove_command_of_gives (r := .split 5 5) hdisassemble nofun rfl,
    fun s => runMove_command_of_gives (r := .received 0x3D) happlyError nofun rfl,
    fun s => runMove_command_of_gives (r := .syndrome 5) hsyndrome nofun rfl,
    fun s => runMove_command_of_gives (r := .position 5) hlocate nofun rfl,
    fun s => runMove_command_of_gives (r := .corrected 0x2D) hcorrect nofun rfl,
    fun s => runMove_command_of_gives (r := .codeword 0x2D) hencode nofun rfl,
    fun s => runMove_command_of_gives (r := .decoded 0x2D 5) hdecode nofun rfl,
    fun s => runMove_command_of_gives (r := .decoded 0x6D 7) hmismatch nofun rfl,
    List.forall_mem_nil _⟩

/-! ### Harmless moves -/

theorem Makes.script_eq {m : HostMove} {s t : State} (h : Makes m s t) : t.script = s.script := by
  cases h with
  | replied r => rfl
  | published hm d mask => rfl
  | wrote w => exact State.writeInput_script s w
  | reset => rfl

/-- A move keeps the inputs well formed if what it writes, where it writes, is. -/
theorem Makes.inputsWellFormed {m : HostMove} {s t : State} (h : Makes m s t)
    (hs : s.inputsWellFormed = true) (hw : ∀ w, m = .write w → WellFormedWrite w) :
    t.inputsWellFormed = true := by
  cases h with
  | replied r => exact hs
  | published hm d mask => exact hs
  | reset => exact hs
  | wrote w =>
    obtain ⟨hword, hmask⟩ := Bool.and_eq_true_iff.1 hs
    cases w with
    | inputWord raw => exact Bool.and_eq_true_iff.2 ⟨hw _ rfl, hmask⟩
    | errorMask raw => exact Bool.and_eq_true_iff.2 ⟨hword, hw _ rfl⟩
    | evenParity even => exact hs

/-- An invocation with a legal position has a next state. -/
theorem exists_exec_eq_next {i : Instr} (h : LegalPosition i) (s : State) :
    ∃ t, exec i s = .next t := by
  obtain ⟨t, ht, -⟩ := everyInvocationAnswers i s h
  exact ⟨t, ht⟩

/-- A harmless move has a next state, SIMULATE's command word on well-formed inputs. -/
theorem exists_runMove_eq_next {m : HostMove} {s : State} (hm : Harmless m)
    (hs : m = .command 0xA0000 → s.inputsWellFormed = true) : ∃ t, runMove m s = .next t := by
  obtain ⟨cmd, i, rfl, hcmd⟩ | ⟨i, rfl, hlegal⟩ | ⟨w, rfl⟩ | rfl := hm
  · have hform : hasWireForm i s = true := hasWireForm_of_wellFormedInputs fun hi =>
      Bool.and_eq_true_iff.1 (hs (congrArg _ (eq_of_decodeCmd_simulate (hi ▸ hcmd))))
    obtain ⟨t, r, ht, -⟩ := exec_returns_of_decodeCmd hcmd hform
    exact ⟨t, (runCommand_ok hcmd hform).trans ht⟩
  · exact exists_exec_eq_next hlegal s
  · exact ⟨_, rfl⟩
  · exact ⟨_, rfl⟩

/-- A step from an unstoppable state makes the pending move and leaves an unstoppable state. -/
theorem step_of_unstoppable {s : State} (h : Unstoppable s) :
    ∃ t, step s = .next t ∧ Unstoppable t ∧ t.script = s.script.tail := by
  cases hs : s.script with
  | nil => exact ⟨s, step_nil hs, h, hs⟩
  | cons m rest =>
    obtain ⟨hharmless, hinputs⟩ := h
    rw [hs] at hharmless hinputs
    obtain ⟨hm, hrest⟩ := List.forall_mem_cons.1 hharmless
    have hwf : m = .command 0xA0000 → (s.withScript rest).inputsWellFormed = true :=
      fun hcmd => (hinputs (hcmd ▸ List.mem_cons_self)).1
    obtain ⟨t, ht⟩ := exists_runMove_eq_next hm hwf
    have hmakes := makes_of_runMove ht
    have htail : t.script = rest := hmakes.script_eq
    refine ⟨t, (step_cons hs).trans ht, ⟨?_, ?_⟩, htail⟩
    · rw [htail]
      exact hrest
    · rw [htail]
      intro hcmd
      obtain ⟨hin, hwrites⟩ := hinputs (List.mem_cons_of_mem _ hcmd)
      exact ⟨hmakes.inputsWellFormed hin fun w hw => hwrites w (hw ▸ List.mem_cons_self),
        fun w hw => hwrites w (List.mem_cons_of_mem _ hw)⟩

/-- Every run from an unstoppable state is safe. -/
theorem safeRun_of_unstoppable (k : Nat) {s : State} (h : Unstoppable s) : SafeRun k s := by
  induction k generalizing s with
  | zero => exact trivial
  | succ k ih =>
    obtain ⟨t, ht, hunstoppable, -⟩ := step_of_unstoppable h
    exact ⟨t, ht, ih hunstoppable⟩

/-- Settles O55: a harmless move has a next state and keeps the inputs well formed where that matters,
so a step keeps the state unstoppable, and a run from one is safe. -/
theorem harmlessMovesRunToTheEnd : Obligations.HarmlessMovesRunToTheEnd :=
  fun _ h => ⟨step_of_unstoppable h, safeRun_of_unstoppable _ h⟩

end Sys2Proof.Machine
end

section
/-! PROOFS. Words and masks: the reversal of a vector, the parts of a word, the algebra of masks and the
masks with at most one 1 (R23, R113, R122, R123). -/

namespace Sys2Proof.Machine

open Sys2Proof.Safety

/-! ### The reversal of a vector -/

/-- Element `i` of the reversed vector is the element `i` from the end (R23). -/
theorem getLsbD_rev {n : Nat} (v : BitVec n) {i : Nat} (hi : i < n) :
    (rev v).getLsbD i = v.getLsbD (n - 1 - i) := by
  have hrev : (toBools v).reverse.getD i false = (toBools v).getD (n - 1 - i) false := by
    rw [List.getD_eq_getElem?_getD, List.getD_eq_getElem?_getD,
      List.getElem?_reverse (by simpa using hi), length_toBools]
  rw [rev, getLsbD_ofBools, decide_eq_true hi, Bool.true_and, hrev, getD_toBools]

/-- Settles O59: an element goes to its place from the end, and twice from the end is where it was. -/
theorem reversalIsItsOwnInverse : Obligations.ReversalIsItsOwnInverse := by
  refine fun n v => ⟨fun i hi => getLsbD_rev v hi, BitVec.eq_of_getLsbD_eq fun i hi => ?_⟩
  rw [getLsbD_rev _ hi, getLsbD_rev _ (by omega)]
  congr 1
  omega

/-! ### Words and their parts -/

/-- A word is what its two parts assemble to (R113). -/
@[simp] theorem assemble_dataPart_parityPart (c : Codeword) :
    assemble (dataPart c) (parityPart c) = c := by
  obtain ⟨hd0, hd1, hd2, hd3⟩ := getLsbD_dataPart c
  obtain ⟨hp0, hp1, hp2⟩ := getLsbD_parityPart c
  calc assemble (dataPart c) (parityPart c)
      = ofBools 7 (toBools c) := by rw [assemble, hd0, hd1, hd2, hd3, hp0, hp1, hp2]; rfl
    _ = c := ofBools_toBools c

/-- Settles O17: a word is what its two parts assemble to. -/
theorem assembleInvertsDisassemble : Obligations.AssembleInvertsDisassemble := by
  refine fun c s => ⟨dataPart c, parityPart c, gives_disassemble c s, ?_⟩
  simpa only [assemble_dataPart_parityPart] using gives_assemble (dataPart c) (parityPart c) s

/-! ### Masks -/

theorem applyError_comm (c m : Codeword) : applyError c m = applyError m c := BitVec.xor_comm c m

/-- Two masks in turn are their exclusive or. -/
theorem applyError_applyError (c : Codeword) (m m' : ErrorMask) :
    applyError (applyError c m) m' = applyError c (m ^^^ m') := BitVec.xor_assoc c m m'

/-- The same mask twice is none. -/
@[simp] theorem applyError_self (c : Codeword) (m : ErrorMask) :
    applyError (applyError c m) m = c := by
  rw [applyError_applyError, BitVec.xor_self]
  exact applyError_zero c

/-- Settles O20: the exclusive or is commutative and associative, and of equal words zero. -/
theorem applyErrorUndoesItself : Obligations.ApplyErrorUndoesItself := by
  intro c m m' s
  refine ⟨applyError c m, gives_applyError c m s, ?_, ?_, applyError (applyError c m) m',
    gives_applyError _ m' s, ?_⟩
  · simpa only [applyError_comm c m] using gives_applyError m c s
  · simpa only [applyError_self] using gives_applyError (applyError c m) m s
  · simpa only [applyError_applyError] using gives_applyError c (m ^^^ m') s

/-- The number of ones counts the positions that hold one. -/
theorem ones_eq_length_filter {n : Nat} (v : BitVec n) :
    ones v = ((List.range n).filter v.getLsbD).length := by
  rw [ones, toBools, List.countP_map, ← List.countP_eq_length_filter]
  rfl

/-- An error changes as many positions as its mask has ones. -/
theorem length_filter_applyError_ne (c : Codeword) (m : ErrorMask) :
    ((List.range 7).filter fun i => (applyError c m).getLsbD i != c.getLsbD i).length = ones m := by
  rw [ones_eq_length_filter]
  congr 2
  funext i
  rw [getLsbD_applyError]
  cases c.getLsbD i <;> simp

theorem errorAt_of_ne_zero {p : ErrorPosition} (hp : p.val ≠ 0) : errorAt p = unit7 p.val :=
  if_neg hp

/-- Settles O21: CORRECT flips what the single-bit mask of its position flips, and a word differs from
the received one where the mask has a one. -/
theorem singleBitMaskFlipsOnePosition : Obligations.SingleBitMaskFlipsOnePosition := by
  refine ⟨fun c p s hp => ⟨correct c p, ?_, gives_correct c p s, fun i hi => getLsbD_correct c p hi⟩,
    fun c m s => ⟨applyError c m, gives_applyError c m s, length_filter_applyError_ne c m⟩⟩
  rw [correct_eq_applyError, ← errorAt_of_ne_zero hp]
  exact gives_applyError c (errorAt p) s

theorem ones_eq_card {n : Nat} (v : BitVec n) :
    ones v = ((Finset.range n).filter fun i => v.getLsbD i = true).card := by
  rw [← Nat.count_eq_card_filter_range, Nat.count, ones, toBools, List.countP_map]
  simp

/-- A vector has at most one 1 when any two positions that hold one are the same. -/
theorem ones_le_one_iff_forall {n : Nat} (v : BitVec n) :
    ones v ≤ 1 ↔ ∀ i j, v.getLsbD i = true → v.getLsbD j = true → i = j := by
  have hlt : ∀ i, v.getLsbD i = true → i < n := fun i => BitVec.lt_of_getLsbD
  rw [ones_eq_card, Finset.card_le_one]
  simp only [Finset.mem_filter, Finset.mem_range]
  exact ⟨fun h i j hi hj => h i ⟨hlt i hi, hi⟩ j ⟨hlt j hj, hj⟩,
    fun h i hi j hj => h i j hi.2 hj.2⟩

/-- A mask with at most one 1 is the channel's error at some position, 0 being none. -/
theorem ones_le_one_iff (m : ErrorMask) : ones m ≤ 1 ↔ ∃ p, m = errorAt p := by
  rw [ones_le_one_iff_forall]
  constructor
  · intro hone
    by_cases hm : ∃ i, m.getLsbD i = true
    · obtain ⟨i, hi⟩ := hm
      have hi7 : i < 7 := BitVec.lt_of_getLsbD hi
      refine ⟨⟨i + 1, Nat.succ_lt_succ hi7⟩, BitVec.eq_of_getLsbD_eq fun j hj => ?_⟩
      rw [getLsbD_errorAt _ hj, Bool.eq_iff_iff, decide_eq_true_iff, Nat.add_left_inj]
      exact ⟨fun hbit => hone j i hbit hi, fun hji => hji ▸ hi⟩
    · refine ⟨0, BitVec.eq_of_getLsbD_eq fun j hj => ?_⟩
      rw [getLsbD_errorAt _ hj, Bool.eq_false_iff.2 fun hbit => hm ⟨j, hbit⟩]
      rfl
  · rintro ⟨p, rfl⟩ i j hi hj
    rw [getLsbD_errorAt _ (BitVec.lt_of_getLsbD hi), decide_eq_true_iff] at hi
    rw [getLsbD_errorAt _ (BitVec.lt_of_getLsbD hj), decide_eq_true_iff] at hj
    exact Nat.succ.inj (hi.trans hj.symm)

end Sys2Proof.Machine
end

section
/-! PROOFS. The syndrome: its equations, the valid codewords as the words of zero syndrome, and its closed
form as the XOR of positions (R101, R102, R130 to R134). -/

namespace Sys2Proof.Machine

open Sys2Proof.Safety

/-! ### The equations of the syndrome -/

/-- The syndrome's elements written out on the received word (R130). -/
theorem getLsbD_computeSyndrome_eq (r : Codeword) (ep : Bool) :
    (computeSyndrome r ep).getLsbD 0 =
      (r.getLsbD 0 ^^ r.getLsbD 2 ^^ r.getLsbD 4 ^^ r.getLsbD 6 ^^ parityOffset ep) ∧
    (computeSyndrome r ep).getLsbD 1 =
      (r.getLsbD 1 ^^ r.getLsbD 2 ^^ r.getLsbD 5 ^^ r.getLsbD 6 ^^ parityOffset ep) ∧
    (computeSyndrome r ep).getLsbD 2 =
      (r.getLsbD 3 ^^ r.getLsbD 4 ^^ r.getLsbD 5 ^^ r.getLsbD 6 ^^ parityOffset ep) := by
  obtain ⟨hd0, hd1, hd2, hd3⟩ := getLsbD_dataPart r
  obtain ⟨hp0, hp1, hp2⟩ := getLsbD_parityPart r
  refine ⟨?_, ?_, ?_⟩
  · rw [getLsbD_computeSyndrome, Bool.xor_comm, getLsbD_zero_computeParity, hp0, hd0, hd1, hd3]
    simp only [Bool.xor_assoc]
  · rw [getLsbD_computeSyndrome, Bool.xor_comm, getLsbD_one_computeParity, hp1, hd0, hd2, hd3]
    simp only [Bool.xor_assoc]
  · rw [getLsbD_computeSyndrome, Bool.xor_comm, getLsbD_two_computeParity, hp2, hd1, hd2, hd3]
    simp only [Bool.xor_assoc]

@[simp] theorem el_zero (n i : Nat) : el (0 : BitVec n) i = 0 := by
  simp [el]

/-- An element of the syndrome as a number: the XOR of four elements and the offset is their sum mod 2. -/
theorem toNat_fourXor_parityOffset (a b c d ep : Bool) :
    (a ^^ b ^^ c ^^ d ^^ parityOffset ep).toNat =
      (a.toNat + b.toNat + c.toNat + d.toNat + offset ep) % 2 := by
  simp only [toNat_xor_eq_add_mod_two, toNat_parityOffset]
  omega

theorem el_computeSyndrome (r : Codeword) (ep : Bool) :
    el (computeSyndrome r ep) 0 = (el r 0 + el r 2 + el r 4 + el r 6 + offset ep) % 2 ∧
    el (computeSyndrome r ep) 1 = (el r 1 + el r 2 + el r 5 + el r 6 + offset ep) % 2 ∧
    el (computeSyndrome r ep) 2 = (el r 3 + el r 4 + el r 5 + el r 6 + offset ep) % 2 := by
  obtain ⟨h0, h1, h2⟩ := getLsbD_computeSyndrome_eq r ep
  simp only [el, h0, h1, h2, toNat_fourXor_parityOffset, and_self]

/-- The other convention complements every element of the syndrome (R133). -/
theorem getLsbD_computeSyndrome_not (r : Codeword) (ep : Bool) {i : Nat} (hi : i < 3) :
    (computeSyndrome r (!ep)).getLsbD i = !(computeSyndrome r ep).getLsbD i := by
  rw [getLsbD_computeSyndrome, getLsbD_computeParity_not _ _ hi, Bool.not_xor,
    getLsbD_computeSyndrome]

/-- Settles O23: the syndrome's elements are XORs of four elements and the offset, which the convention
complements. -/
theorem syndromeEquationsOnTheReceivedWord : Obligations.SyndromeEquationsOnTheReceivedWord := by
  intro r ep s
  obtain ⟨h0, h1, h2⟩ := el_computeSyndrome r ep
  exact ⟨_, _, gives_syndrome r ep s, gives_syndrome r (!ep) s, h0, h1, h2,
    fun i hi => getLsbD_computeSyndrome_not r ep hi⟩

/-- Settles O13: the codeword's syndrome is zero, so the elements each check covers and the offset add
up to an even number. -/
theorem parityMakesTheCoveredOnesEven : Obligations.ParityMakesTheCoveredOnesEven := by
  refine fun d ep s => ⟨_, gives_encode d ep s, fun i hi => ?_⟩
  obtain ⟨h0, h1, h2⟩ := el_computeSyndrome (assemble d (computeParity d ep)) ep
  simp only [computeSyndrome_assemble_computeParity, el_zero] at h0 h1 h2
  have hoff : offset ep < 2 := by cases ep <;> decide
  match i, hi with
  | 0, _ =>
    have hcovered : ((List.range 7).filter fun j => (j + 1).testBit 0) = [0, 2, 4, 6] := by decide
    simp only [hcovered, List.map_cons, List.map_nil, List.sum_cons, List.sum_nil]
    omega
  | 1, _ =>
    have hcovered : ((List.range 7).filter fun j => (j + 1).testBit 1) = [1, 2, 5, 6] := by decide
    simp only [hcovered, List.map_cons, List.map_nil, List.sum_cons, List.sum_nil]
    omega
  | 2, _ =>
    have hcovered : ((List.range 7).filter fun j => (j + 1).testBit 2) = [3, 4, 5, 6] := by decide
    simp only [hcovered, List.map_cons, List.map_nil, List.sum_cons, List.sum_nil]
    omega

/-! ### The valid codewords -/

/-- A word is a valid codeword exactly when the parity recomputed from its data is the one it carries
(R131). -/
theorem validCodeword_iff (ep : Bool) (c : Codeword) :
    ValidCodeword ep c ↔ computeSyndrome c ep = 0 := by
  constructor
  · rintro ⟨d, rfl⟩
    exact computeSyndrome_assemble_computeParity d ep
  · intro h
    have hparity : computeParity (dataPart c) ep = parityPart c := BitVec.xor_eq_zero_iff.1 h
    exact ⟨dataPart c, by rw [hparity, assemble_dataPart_parityPart]⟩

/-- A valid codeword is fixed by its data. -/
theorem eq_of_dataPart_eq {ep : Bool} {c c' : Codeword} (hc : ValidCodeword ep c)
    (hc' : ValidCodeword ep c') (h : dataPart c = dataPart c') : c = c' := by
  obtain ⟨d, rfl⟩ := hc
  obtain ⟨d', rfl⟩ := hc'
  rw [dataPart_assemble, dataPart_assemble] at h
  rw [h]

/-- The other convention complements the syndrome (R133). -/
theorem computeSyndrome_not (r : Codeword) (ep : Bool) :
    computeSyndrome r (!ep) = ~~~computeSyndrome r ep := by
  refine BitVec.eq_of_getLsbD_eq fun i hi => ?_
  rw [getLsbD_computeSyndrome_not r ep hi, BitVec.getLsbD_not, decide_eq_true hi, Bool.true_and]

/-- No word is valid under both conventions (R25). -/
theorem not_validCodeword_both (c : Codeword) : ¬ (ValidCodeword true c ∧ ValidCodeword false c) := by
  rintro ⟨heven, hodd⟩
  have hnot := computeSyndrome_not c true
  rw [(validCodeword_iff _ _).1 heven, Bool.not_true, (validCodeword_iff _ _).1 hodd] at hnot
  exact absurd hnot (by decide)

/-- Settles O24: a zero syndrome says that recomputed and carried parity agree, and the other
convention's syndrome is the complement. -/
theorem zeroSyndromeMeansValidCodeword : Obligations.ZeroSyndromeMeansValidCodeword := by
  refine ⟨fun r ep s => ?_, not_validCodeword_both⟩
  rw [validCodeword_iff]
  constructor
  · intro h
    exact Result.syndrome.inj (gives_unique (gives_syndrome r ep s) h)
  · intro h
    simpa only [h] using gives_syndrome r ep s

/-! ### The closed form of the syndrome -/

/-- Bit `j` of the XOR of positions is the XOR of the positions' bits. -/
theorem testBit_foldl_xor {n : Nat} (v : BitVec n) (l : List Nat) (acc j : Nat) :
    (l.foldl (fun acc i => if v.getLsbD i then acc ^^^ (i + 1) else acc) acc).testBit j =
      l.foldl (fun b i => b ^^ (v.getLsbD i && (i + 1).testBit j)) (acc.testBit j) := by
  induction l generalizing acc with
  | nil => rfl
  | cons i l ih =>
    rw [List.foldl_cons, List.foldl_cons, ih]
    congr 1
    cases v.getLsbD i <;> simp [Nat.testBit_xor]

/-- Each check covers the positions whose number has its weight bit (R102), so under even parity the
syndrome is the XOR of the positions of the ones (R132). -/
theorem toNat_computeSyndrome (r : Codeword) :
    (computeSyndrome r true).toNat = positionsXor r := by
  obtain ⟨h0, h1, h2⟩ := getLsbD_computeSyndrome_eq r true
  refine Nat.eq_of_testBit_eq fun j => ?_
  rw [positionsXor, testBit_foldl_xor, BitVec.testBit_toNat]
  match j with
  | 0 =>
    rw [h0]
    simp [List.range_succ, parityOffset]
  | 1 =>
    rw [h1]
    simp [List.range_succ, parityOffset, Nat.testBit_succ]
  | 2 =>
    rw [h2]
    simp [List.range_succ, parityOffset, Nat.testBit_succ]
  | j + 3 => simp [List.range_succ, Nat.testBit_succ]

/-- The syndrome of a valid codeword with an error is that of the error alone. -/
theorem computeSyndrome_of_validCodeword {ep : Bool} {c : Codeword} (hc : ValidCodeword ep c)
    (m : ErrorMask) : computeSyndrome (applyError c m) ep = computeSyndrome m true := by
  obtain ⟨d, rfl⟩ := hc
  exact computeSyndrome_applyError_codeword d m ep

/-- Settles O25: the syndrome is the XOR of the positions of the ones, and of a codeword with an error
it is that of the error alone. -/
theorem syndromeIsTheXorOfPositions : Obligations.SyndromeIsTheXorOfPositions := by
  refine ⟨fun r s => ⟨_, gives_syndrome r true s, toNat_computeSyndrome r⟩,
    fun c m ep s hc => ⟨_, _, gives_applyError c m s, gives_syndrome _ ep s, ?_⟩⟩
  rw [computeSyndrome_of_validCodeword hc, toNat_computeSyndrome]

end Sys2Proof.Machine
end

section
/-! PROOFS. The decoder on a codeword with any error: it decodes the error, the codeword carried along,
which undoes a single error and no more, and what it does under the other convention (R144 to R146,
R194). -/

namespace Sys2Proof.Machine

open Sys2Proof.Safety

/-! ### What the decoder makes of an error -/

/-- The decoder applies the error at the position its syndrome names. -/
theorem decodeReceived_eq (r : Codeword) (ep : Bool) :
    decodeReceived r ep = applyError r (errorAt (decodePosition r ep)) :=
  correct_eq_applyError r _

/-- The error at the position a syndrome names has that syndrome. -/
theorem computeSyndrome_errorAt_locateError (y : Syndrome) :
    computeSyndrome (errorAt (locateError y)) true = y := by
  rw [computeSyndrome_errorAt, val_locateError, BitVec.ofNat_toNat, BitVec.setWidth_eq]

/-- The decoder always answers a valid codeword: what it applies has the syndrome of the word. -/
theorem validCodeword_decodeReceived (r : Codeword) (ep : Bool) :
    ValidCodeword ep (decodeReceived r ep) := by
  rw [validCodeword_iff, decodeReceived_eq, computeSyndrome_applyError, decodePosition,
    computeSyndrome_errorAt_locateError]
  exact BitVec.xor_self

/-- The position found in a codeword with an error depends on the error alone. -/
theorem decodePosition_applyError {ep : Bool} {c : Codeword} (hc : ValidCodeword ep c)
    (m : ErrorMask) : decodePosition (applyError c m) ep = decodePosition m true := by
  rw [decodePosition, computeSyndrome_of_validCodeword hc, decodePosition]

/-- Decoding a codeword with an error is decoding the error, the codeword carried along. -/
theorem decodeReceived_applyError {ep : Bool} {c : Codeword} (hc : ValidCodeword ep c)
    (m : ErrorMask) : decodeReceived (applyError c m) ep = applyError c (decodeReceived m true) := by
  rw [decodeReceived_eq, decodeReceived_eq, decodePosition_applyError hc, applyError_applyError]
  rfl

/-- The position found in an error is the XOR of the positions of its ones. -/
theorem val_decodePosition_true (m : ErrorMask) : (decodePosition m true).val = positionsXor m := by
  rw [decodePosition, val_locateError, toNat_computeSyndrome]

/-- A position is found in the error there. -/
@[simp] theorem decodePosition_errorAt (p : ErrorPosition) : decodePosition (errorAt p) true = p := by
  rw [decodePosition, computeSyndrome_errorAt, locateError_ofNat]

/-- Nothing is left of an error exactly when it has at most one 1. -/
theorem decodeReceived_true_eq_zero_iff (m : ErrorMask) :
    decodeReceived m true = 0 ↔ ones m ≤ 1 := by
  rw [decodeReceived_eq, ones_le_one_iff]
  constructor
  · exact fun h => ⟨_, BitVec.xor_eq_zero_iff.1 h⟩
  · rintro ⟨p, rfl⟩
    rw [decodePosition_errorAt]
    exact BitVec.xor_self

/-- The data comes out right exactly when the error has at most one 1: a valid codeword is fixed by its
data, so nothing may be left of the error. -/
theorem dataPart_decodeReceived_eq_iff {ep : Bool} {c : Codeword} (hc : ValidCodeword ep c)
    (m : ErrorMask) : dataPart (decodeReceived (applyError c m) ep) = dataPart c ↔ ones m ≤ 1 := by
  have hvalid := validCodeword_decodeReceived (applyError c m) ep
  rw [← decodeReceived_true_eq_zero_iff]
  rw [decodeReceived_applyError hc] at hvalid ⊢
  constructor
  · intro h
    have hsame := (eq_of_dataPart_eq hvalid hc h).trans (applyError_zero c).symm
    exact (BitVec.xor_right_inj c).1 hsame
  · intro h
    rw [h, applyError_zero]

/-- A single error is undone. -/
theorem decodeReceived_applyError_errorAt {ep : Bool} {c : Codeword} (hc : ValidCodeword ep c)
    (p : ErrorPosition) : decodeReceived (applyError c (errorAt p)) ep = c := by
  rw [decodeReceived_eq, decodePosition_applyError hc, decodePosition_errorAt, applyError_self]

/-- Settles O33: the decoder answers a valid codeword, one flip away at most; of any valid codeword so
near, the received word is that codeword with a single error, which the decoder undoes. -/
theorem decoderFindsTheNearestCodeword : Obligations.DecoderFindsTheNearestCodeword := by
  intro r ep s
  have hvalid := validCodeword_decodeReceived r ep
  refine ⟨decodeReceived r ep, decodePosition r ep, gives_decode r ep s,
    (zeroSyndromeMeansValidCodeword.1 _ ep s).2 hvalid, fun c' => ⟨?_, ?_⟩⟩
  · rintro ⟨hc', hone⟩
    obtain ⟨p, hp⟩ := (ones_le_one_iff _).1 hone
    obtain rfl : r = applyError c' (errorAt p) := by
      rw [← hp, applyError, ← BitVec.xor_assoc, BitVec.xor_self, BitVec.zero_xor]
    exact (decodeReceived_applyError_errorAt hc' p).symm
  · rintro rfl
    refine ⟨hvalid, (ones_le_one_iff _).2 ⟨decodePosition r ep, ?_⟩⟩
    rw [decodeReceived_eq, applyError, BitVec.xor_comm r, BitVec.xor_assoc, BitVec.xor_self,
      BitVec.xor_zero]

/-! ### Two and more errors -/

/-- With two or more ones in the mask the data comes out wrong. -/
theorem dataPart_decodeReceived_ne {ep : Bool} {c : Codeword} (hc : ValidCodeword ep c)
    {m : ErrorMask} (hm : 2 ≤ ones m) :
    dataPart (decodeReceived (applyError c m) ep) ≠ dataPart c := fun h =>
  Nat.not_succ_le_self 1 (hm.trans ((dataPart_decodeReceived_eq_iff hc m).1 h))

/-- Settles O32: the decoder answers a valid codeword with other data. -/
theorem multipleErrorsDecodeToAWrongCodeword : Obligations.MultipleErrorsDecodeToAWrongCodeword := by
  intro d ep m s hm
  have hc : ValidCodeword ep (assemble d (computeParity d ep)) := ⟨d, rfl⟩
  have hdata := dataPart_decodeReceived_ne hc hm
  refine ⟨_, _, _, _, _, gives_encode d ep s, gives_decode _ ep s, validCodeword_decodeReceived _ ep,
    fun hsame => hdata (congrArg dataPart hsame), ?_, gives_disassemble _ s, ?_⟩
  · exact (congrArg Fin.val (decodePosition_applyError hc m)).trans (val_decodePosition_true m)
  · rwa [dataPart_assemble] at hdata

/-- The masks of two different positions together have two ones. -/
theorem two_le_ones_errorAt_xor {p q : ErrorPosition} (hp : p.val ≠ 0) (hq : q.val ≠ 0)
    (hpq : p ≠ q) : 2 ≤ ones (errorAt p ^^^ errorAt q) := by
  by_contra hlt
  have hone := (ones_le_one_iff_forall _).1 (Nat.le_of_lt_succ (Nat.lt_of_not_le hlt))
  have hne : p.val ≠ q.val := Fin.val_ne_of_ne hpq
  have hbit : ∀ i, i < 7 → (i + 1 = p.val ∨ i + 1 = q.val) →
      (errorAt p ^^^ errorAt q).getLsbD i = true := by
    intro i hi hor
    rw [BitVec.getLsbD_xor, getLsbD_errorAt p hi, getLsbD_errorAt q hi]
    obtain h | h := hor
    · rw [h, decide_eq_true rfl, decide_eq_false hne, Bool.xor_false]
    · rw [h, decide_eq_true rfl, decide_eq_false hne.symm, Bool.false_xor]
  have hsame := hone (p.val - 1) (q.val - 1) (hbit _ (by omega) (by omega))
    (hbit _ (by omega) (by omega))
  omega

/-- The position found in two errors is the exclusive or of their positions. -/
theorem val_decodePosition_errorAt_xor (p q : ErrorPosition) :
    (decodePosition (errorAt p ^^^ errorAt q) true).val = p.val ^^^ q.val := by
  have hsyn : computeSyndrome (errorAt p ^^^ errorAt q) true =
      BitVec.ofNat 3 p.val ^^^ BitVec.ofNat 3 q.val := by
    rw [← computeSyndrome_errorAt, ← computeSyndrome_errorAt]
    exact computeSyndrome_applyError (errorAt p) (errorAt q) true
  rw [decodePosition, val_locateError, hsyn, BitVec.toNat_xor, BitVec.toNat_ofNat,
    BitVec.toNat_ofNat, Nat.mod_eq_of_lt p.isLt, Nat.mod_eq_of_lt q.isLt]

theorem xor_ne_left {a b : Nat} (hb : b ≠ 0) : a ^^^ b ≠ a := fun h =>
  hb (by rw [← Nat.xor_xor_cancel_left a b, h, Nat.xor_self])

/-- Settles O31: the position found is `p XOR q`, a third one; the decoder flips it and answers a valid
codeword with other data. -/
theorem doubleErrorFlipsAThirdPosition : Obligations.DoubleErrorFlipsAThirdPosition := by
  intro d ep p q s hp hq hpq
  have hc : ValidCodeword ep (assemble d (computeParity d ep)) := ⟨d, rfl⟩
  have hgives := gives_encode d ep s
  have hwrong := dataPart_decodeReceived_ne hc (two_le_ones_errorAt_xor hp hq hpq)
  rw [dataPart_assemble] at hwrong
  generalize assemble d (computeParity d ep) = c at hc hgives hwrong
  have hr : c ^^^ unit7 p.val ^^^ unit7 q.val = applyError c (errorAt p ^^^ errorAt q) := by
    rw [errorAt_of_ne_zero hp, errorAt_of_ne_zero hq]
    exact BitVec.xor_assoc ..
  have ht : (decodePosition (applyError c (errorAt p ^^^ errorAt q)) ep).val = p.val ^^^ q.val := by
    rw [decodePosition_applyError hc, val_decodePosition_errorAt_xor]
  have ht0 : p.val ^^^ q.val ≠ 0 := fun h => hpq (Fin.ext (Nat.xor_eq_zero_iff.1 h))
  rw [← ht] at ht0
  refine ⟨c, decodeReceived (applyError c (errorAt p ^^^ errorAt q)) ep, _, _, _, hgives,
    hr ▸ gives_decode _ ep s, ht, ht0, fun h => ?_, fun h => ?_, ?_,
    validCodeword_decodeReceived _ ep, gives_disassemble _ s, hwrong⟩
  · exact xor_ne_left hq (ht.symm.trans (congrArg Fin.val h))
  · exact xor_ne_left hp ((Nat.xor_comm ..).trans (ht.symm.trans (congrArg Fin.val h)))
  · rw [hr, decodeReceived_eq, errorAt_of_ne_zero ht0]
    rfl

/-! ### The other convention -/

/-- Under the other convention a codeword's syndrome is all ones. -/
theorem computeSyndrome_not_of_validCodeword {ep : Bool} {c : Codeword} (hc : ValidCodeword ep c) :
    computeSyndrome c (!ep) = 7 := by
  rw [computeSyndrome_not, (validCodeword_iff ep c).1 hc]
  rfl

/-- Under the other convention the position found in a codeword with an error is the one whose number
complements the error's. -/
theorem val_decodePosition_not {ep : Bool} {c : Codeword} (hc : ValidCodeword ep c)
    (p : ErrorPosition) : (decodePosition (applyError c (errorAt p)) (!ep)).val = p.val ^^^ 7 := by
  have hsyn : computeSyndrome (applyError c (errorAt p)) (!ep) =
      BitVec.ofNat 3 7 ^^^ BitVec.ofNat 3 p.val := by
    rw [computeSyndrome_applyError, computeSyndrome_not_of_validCodeword hc, computeSyndrome_errorAt]
    rfl
  rw [decodePosition, val_locateError, hsyn, BitVec.toNat_xor, BitVec.toNat_ofNat,
    BitVec.toNat_ofNat, Nat.mod_eq_of_lt p.isLt, Nat.xor_comm]

/-- Under the other convention the decoder flips position 7 of a codeword. -/
theorem gives_decode_not {ep : Bool} {c : Codeword} (hc : ValidCodeword ep c) (s : State) :
    Gives (.decode (rawOf c) (!ep)) s (.decoded (c ^^^ unit7 7) 7) := by
  have hpos : decodePosition c (!ep) = 7 := by
    rw [decodePosition, computeSyndrome_not_of_validCodeword hc]
    decide
  have hword : decodeReceived c (!ep) = c ^^^ unit7 7 := by
    rw [decodeReceived_eq, hpos]
    rfl
  simpa only [hpos, hword] using gives_decode c (!ep) s

/-- Position 7 holds element 3 of the data. -/
theorem getLsbD_dataPart_xor_unit7_seven (c : Codeword) {i : Nat} (hi : i < 4) :
    (dataPart (c ^^^ unit7 7)).getLsbD i =
      if i = 3 then !(dataPart c).getLsbD i else (dataPart c).getLsbD i := by
  have hunit : ∀ i < 4, (dataPart (unit7 7)).getLsbD i = decide (i = 3) := by decide
  have hxor : dataPart (c ^^^ unit7 7) = dataPart c ^^^ dataPart (unit7 7) :=
    dataPart_applyError c (unit7 7)
  rw [hxor, BitVec.getLsbD_xor, hunit i hi]
  by_cases h : i = 3
  · rw [if_pos h, decide_eq_true h, Bool.xor_true]
  · rw [if_neg h, decide_eq_false h, Bool.xor_false]

/-- Settles O34: under the other convention the syndrome is the complement of the error's, so the
decoder flips the position that complements the error's, 7 where there is none. -/
theorem conventionMismatchShiftsThePosition : Obligations.ConventionMismatchShiftsThePosition := by
  intro d ep s
  have hc : ValidCodeword ep (assemble d (computeParity d ep)) := ⟨d, rfl⟩
  refine ⟨assemble d (computeParity d ep), gives_encode d ep s, ?_,
    ⟨_, _, gives_decode_not hc s, gives_disassemble _ s, fun i hi => ?_⟩, fun p hp => ?_⟩
  · simpa only [computeSyndrome_not_of_validCodeword hc] using
      gives_syndrome (assemble d (computeParity d ep)) (!ep) s
  · rw [getLsbD_dataPart_xor_unit7_seven _ hi, dataPart_assemble]
  · rw [← errorAt_of_ne_zero hp]
    exact ⟨_, _, gives_decode _ (!ep) s, val_decodePosition_not hc p, decodeReceived_eq _ (!ep)⟩

end Sys2Proof.Machine
end

section
/-! PROOFS. The closed form of a run, its symmetry under the convention, and when it recovers the data
(R156, R157, R159). -/

namespace Sys2Proof.Machine

open Sys2Proof.Safety

/-- The syndrome of a run is that of its mask (R156). -/
theorem syndrome_simulateRun (d : DataWord) (m : ErrorMask) (ep : Bool) :
    (simulateRun d m ep).syndrome = computeSyndrome m true :=
  computeSyndrome_applyError_codeword d m ep

/-- The corrected data of a run is the data part of the codeword with the mask and the error the
decoder applies, which the mask alone fixes (R156). -/
theorem correctedData_simulateRun (d : DataWord) (m : ErrorMask) (ep : Bool) :
    (simulateRun d m ep).correctedData =
      dataPart (assemble d (computeParity d ep) ^^^ m ^^^ errorAt (decodePosition m true)) := by
  have hc : ValidCodeword ep (assemble d (computeParity d ep)) := ⟨d, rfl⟩
  rw [← decodePosition_applyError hc]
  exact congrArg dataPart (decodeReceived_eq _ ep)

/-- The residual of a run depends on the mask alone (R156). -/
theorem correctedData_simulateRun_eq_xor (d : DataWord) (m : ErrorMask) (ep : Bool) :
    (simulateRun d m ep).correctedData = d ^^^ dataPart (m ^^^ errorAt (decodePosition m true)) := by
  have hlinear := dataPart_applyError (assemble d (computeParity d ep))
    (m ^^^ errorAt (decodePosition m true))
  rw [dataPart_assemble] at hlinear
  rw [correctedData_simulateRun, BitVec.xor_assoc]
  exact hlinear

/-- The error the decoder applies for a mask, by the XOR of the mask's positions. -/
theorem errorAt_decodePosition_true (m : ErrorMask) :
    errorAt (decodePosition m true) = if positionsXor m = 0 then 0 else unit7 (positionsXor m) := by
  rw [errorAt, val_decodePosition_true]

/-- Settles O40: the mask alone fixes the syndrome and the error the decoder applies, and the data part
is linear. -/
theorem simulateClosedForm : Obligations.SimulateClosedForm := by
  intro s d m hd hm
  have hdis := gives_disassemble
    (assemble d (computeParity d s.evenParity) ^^^ m ^^^ errorAt (decodePosition m true)) s
  rw [← correctedData_simulateRun] at hdis
  refine ⟨_, _, _, _, _, _, _, _, _, execSimulate_rawOf s d m hd hm,
    gives_parity d s.evenParity s, gives_encode d s.evenParity s, rfl, rfl, rfl, rfl, rfl, ?_, rfl,
    errorAt_decodePosition_true m, hdis, gives_disassemble _ s,
    correctedData_simulateRun_eq_xor d m s.evenParity⟩
  rw [syndrome_simulateRun, toNat_computeSyndrome]

/-- The convention enters a codeword at positions 1, 2 and 4 alone, where it complements. -/
theorem getLsbD_assemble_computeParity_not (d : DataWord) (ep : Bool) {i : Nat} (hi : i < 7) :
    (assemble d (computeParity d (!ep))).getLsbD i =
      if i = 0 ∨ i = 1 ∨ i = 3 then !(assemble d (computeParity d ep)).getLsbD i
      else (assemble d (computeParity d ep)).getLsbD i := by
  obtain ⟨h0, h1, h2, h3, h4, h5, h6⟩ := getLsbD_assemble d (computeParity d (!ep))
  obtain ⟨g0, g1, g2, g3, g4, g5, g6⟩ := getLsbD_assemble d (computeParity d ep)
  match i, hi with
  | 0, _ => rw [if_pos (by decide), h0, g0, getLsbD_computeParity_not d ep (by decide)]
  | 1, _ => rw [if_pos (by decide), h1, g1, getLsbD_computeParity_not d ep (by decide)]
  | 2, _ => rw [if_neg (by decide), h2, g2]
  | 3, _ => rw [if_pos (by decide), h3, g3, getLsbD_computeParity_not d ep (by decide)]
  | 4, _ => rw [if_neg (by decide), h4, g4]
  | 5, _ => rw [if_neg (by decide), h5, g5]
  | 6, _ => rw [if_neg (by decide), h6, g6]

/-- Settles O41: the convention complements the parity, and neither the syndrome nor the corrected data
of a run depends on it. -/
theorem conventionSymmetryOfARun : Obligations.ConventionSymmetryOfARun := by
  intro s d m hd hm
  refine ⟨_, _, _, _, _, _, execSimulate_rawOf s d m hd hm,
    execSimulate_rawOf { s with evenParity := !s.evenParity } d m hd hm, rfl, rfl,
    fun i hi => getLsbD_computeParity_not d s.evenParity hi, rfl, rfl,
    fun i hi => getLsbD_assemble_computeParity_not d s.evenParity hi, rfl, rfl, rfl, ?_, ?_⟩
  · exact congrArg some ((syndrome_simulateRun ..).trans (syndrome_simulateRun ..).symm)
  · exact congrArg some ((correctedData_simulateRun_eq_xor ..).trans
      (correctedData_simulateRun_eq_xor ..).symm)

/-- Settles O42: a run's corrected data is what the decoder makes of the codeword with the mask. -/
theorem simulateRecoversDataIffAtMostOneFlip : Obligations.SimulateRecoversDataIffAtMostOneFlip := by
  intro s d m hd hm
  have hc : ValidCodeword s.evenParity (assemble d (computeParity d s.evenParity)) := ⟨d, rfl⟩
  refine ⟨_, _, execSimulate_rawOf s d m hd hm, rfl, rfl, ?_⟩
  rw [← dataPart_decodeReceived_eq_iff hc, dataPart_assemble]
  rfl

end Sys2Proof.Machine
end
